-- ==== Sys2Proof/Word.lean ====
section
/-! DEFINITION. The words that cross the block's interface and the values inside them.

Bit `i` of a value counts from zero at its least-significant bit (00_scope.md R5), as `BitVec.getLsbD` does;
every value is unsigned (R7). -/

namespace Sys2Proof

/-- The request word `W[39:0]`, the block's one input (10_state.md R16, 30_encoding.md R31, R36). -/
abbrev Request := BitVec 40

/-- The `Y[31:0]` part of a response (10_state.md R17, 30_encoding.md R37). -/
abbrev ResultWord := BitVec 32

/-- A channel value, unsigned, 8 bits (10_state.md R19). -/
abbrev Channel := BitVec 8

/-- An interleaved triple, or an interleaved PCM input, unsigned, 24 bits (10_state.md R20, R22). -/
abbrev Triple := BitVec 24

/-- A packed RGBA word, unsigned, 32 bits (10_state.md R21). -/
abbrev Packed := BitVec 32

end Sys2Proof
end

