-- ==== Sys2Proof/Syntax.lean ====
section
/-! DEFINITION. The block's instructions, and the lines of its assembler. -/

namespace Sys2Proof

/-- One request the block executes, one constructor per row of opcode_table.json. The operand widths are those of
30_encoding.md R33, so an operand outside its width (a negative value, a bit index of 32 or more) cannot be written
(00_scope.md R7, 40_bit_select.md R40, D6). -/
inductive Instr where
  /-- `ibytes r, g, b` (41_interleave.md R41). -/
  | ibytes (r g b : Channel)
  /-- `irgba rgba` (41_interleave.md R42). -/
  | irgba (rgba : Packed)
  /-- `deint pcm24` (42_deinterleave.md R46). -/
  | deint (pcm24 : Triple)
  /-- `getbit x, i` (40_bit_select.md R40). -/
  | getbit (x : BitVec 32) (i : BitVec 5)
  deriving DecidableEq, Repr

/-- The mnemonic of an instruction's row in opcode_table.json. -/
def Instr.mnemonic : Instr → String
  | .ibytes _ _ _ => "IBYTES"
  | .irgba _ => "IRGBA"
  | .deint _ => "DEINT"
  | .getbit _ _ => "GETBIT"

/-- One line of the assembler (30_encoding.md R38, R39): a mnemonic or the directive `.req`, with its operands as the
unsigned integers that were written, of any size. -/
inductive Line where
  | ibytes (r g b : Nat)
  | irgba (rgba : Nat)
  | deint (pcm24 : Nat)
  | getbit (x i : Nat)
  /-- `.req w`: the word `w` as it stands (R39). -/
  | req (w : Nat)
  deriving DecidableEq, Repr

end Sys2Proof
end

