-- ==== Sys2Proof/WellFormed.lean ====
section
/-! DEFINITION. Which assembler lines are well formed (30_encoding.md R38, R39).

An `Instr` needs no check of its own: its operands are bit vectors of the widths 30_encoding.md R33 declares, so every
`Instr` is a request the block executes. What can be ill formed is what a programmer writes (a `Line`, checked here) and
a raw request word (a must-be-zero bit set, 30_encoding.md R34, checked by `Sys2Proof.Request.violates` and by `decode`
in Decode.lean). -/

namespace Sys2Proof

/-- Every operand is in the range R38 gives it; the word of `.req` is in 0..0xFFFFFFFFFF (R39). "An assembler refuses an
operand outside its range; it does not truncate." -/
def Line.wellFormed : Line → Bool
  | .ibytes r g b => decide (r ≤ 255) && decide (g ≤ 255) && decide (b ≤ 255)
  | .irgba rgba => decide (rgba ≤ 0xFFFFFFFF)
  | .deint pcm24 => decide (pcm24 ≤ 0xFFFFFF)
  | .getbit x i => decide (x ≤ 0xFFFFFFFF) && decide (i ≤ 31)
  | .req w => decide (w ≤ 0xFFFFFFFFFF)

end Sys2Proof
end

