-- ==== Sys2Proof/Decode.lean ====
section
/-! DEFINITION. The fields of a request word, the decoder, the encoder, the opcode table and the assembler's words
(30_encoding.md). -/

namespace Sys2Proof

/-! ### Fields (30_encoding.md R31) -/

/-- `op = W[39:38]`. -/
def Request.op (w : Request) : BitVec 2 := w.extractLsb' 38 2

/-- `ext = W[37:32]`. -/
def Request.ext (w : Request) : BitVec 6 := w.extractLsb' 32 6

/-- `D = W[31:0]`. -/
def Request.data (w : Request) : BitVec 32 := w.extractLsb' 0 32

/-! ### Must-be-zero bits (30_encoding.md R34) -/

/-- The mask of the bits of `W` that no operand of the selected operation occupies, R34's table. -/
def mustBeZeroMask (op : BitVec 2) : Request :=
  if op = 0b00#2 then 0x3FFF000000#40
  else if op = 0b01#2 then 0x3F00000000#40
  else if op = 0b10#2 then 0x3FFF000000#40
  else 0x2000000000#40

/-- The request has a must-be-zero bit set, the cause of ContractViolation (60_exceptions.md R50). -/
def Request.violates (w : Request) : Bool := (w &&& mustBeZeroMask (Request.op w)) != 0#40

/-! ### The decoder (30_encoding.md R35) -/

/-- Why a word is no instruction. The block has one cause (60_exceptions.md R50), and the op code is never invalid
(R52). -/
inductive DecodeError where
  /-- A must-be-zero bit of the selected operation is set (R34). -/
  | contractViolation
  deriving DecidableEq, Repr

/-- The decoder, total on every 40-bit word: `W[39:38]` selects the operation, its must-be-zero bits are checked, and
its operands are taken from the bits R33 gives them. -/
def decode (w : Request) : Except DecodeError Instr :=
  if Request.op w = 0b00#2 then
    if w.extractLsb' 24 14 = 0#14 then
      .ok (.ibytes (w.extractLsb' 16 8) (w.extractLsb' 8 8) (w.extractLsb' 0 8))
    else .error .contractViolation
  else if Request.op w = 0b01#2 then
    if Request.ext w = 0#6 then .ok (.irgba (Request.data w)) else .error .contractViolation
  else if Request.op w = 0b10#2 then
    if w.extractLsb' 24 14 = 0#14 then .ok (.deint (w.extractLsb' 0 24))
    else .error .contractViolation
  else
    if w.extractLsb' 37 1 = 0#1 then .ok (.getbit (Request.data w) (w.extractLsb' 32 5))
    else .error .contractViolation

/-! ### The encoder (opcode_table.json, column "encoding") -/

/-- The request word of an instruction: the op code, zeros in the must-be-zero bits, the operands. -/
def encode : Instr → Request
  | .ibytes r g b => 0b00#2 ++ 0#14 ++ r ++ g ++ b
  | .irgba rgba => 0b01#2 ++ 0#6 ++ rgba
  | .deint pcm24 => 0b10#2 ++ 0#14 ++ pcm24
  | .getbit x i => 0b11#2 ++ 0#1 ++ i ++ x

/-! ### The opcode table as data (30_encoding.md R35) -/

/-- A row of opcode_table.json: a word `W` belongs to it when `(W & mask) == pattern`. -/
structure OpcodeRow where
  mnemonic : String
  mask     : Request
  pattern  : Request
  deriving DecidableEq, Repr

/-- The four rows of opcode_table.json, in its order. -/
def opcodeRows : List OpcodeRow :=
  [⟨"IBYTES", 0xFFFF000000#40, 0x0000000000#40⟩,
   ⟨"IRGBA", 0xFF00000000#40, 0x4000000000#40⟩,
   ⟨"DEINT", 0xFFFF000000#40, 0x8000000000#40⟩,
   ⟨"GETBIT", 0xE000000000#40, 0xC000000000#40⟩]

/-- `(W & mask) == pattern`. -/
def OpcodeRow.admits (row : OpcodeRow) (w : Request) : Bool := (w &&& row.mask) == row.pattern

/-- The rows that admit a word: "a word `W` with `(W & mask) == match` for a row executes that row; a word matching no
row raises ContractViolation" (R35). -/
def rowsAdmitting (w : Request) : List OpcodeRow := opcodeRows.filter fun row => row.admits w

/-! ### The assembler's words (30_encoding.md R38, R39) -/

/-- The request word R38's table gives a line, computed by its own shifts and ors; `.req w` emits `w`. -/
def Line.word : Line → Nat
  | .ibytes r g b => (0b00 <<< 38) ||| (r <<< 16) ||| (g <<< 8) ||| b
  | .irgba rgba => (0b01 <<< 38) ||| rgba
  | .deint pcm24 => (0b10 <<< 38) ||| pcm24
  | .getbit x i => (0b11 <<< 38) ||| (i <<< 32) ||| x
  | .req w => w

/-- Assemble one line; a line with an operand outside its range is refused (`none`), never truncated. -/
def Line.assemble (l : Line) : Option Request :=
  if l.wellFormed then some (BitVec.ofNat 40 l.word) else none

/-- The line that writes an instruction. -/
def Instr.toLine : Instr → Line
  | .ibytes r g b => .ibytes r.toNat g.toNat b.toNat
  | .irgba rgba => .irgba rgba.toNat
  | .deint pcm24 => .deint pcm24.toNat
  | .getbit x i => .getbit x.toNat i.toNat

/-! ### The host's numbering of a table word -/

/-- The request word whose low `nbits` bits are those of `w`, the bits above them 0. Bit `n` of a table row is bit `n`
of `W` (opcode_table.json, 30_encoding.md R31). -/
def tableRequest (nbits w : Nat) : Request := BitVec.ofNat 40 (w % 2 ^ min nbits 40)

/-- What the decoder reads from a table word of `nbits` bits. A request is exactly 40 bits (30_encoding.md R36): a longer
one is no instruction, and a shorter one has zeros above (log 9). -/
def decodeTableWord (nbits w : Nat) : Option Instr :=
  if nbits ≤ 40 then
    match decode (tableRequest nbits w) with
    | .ok i => some i
    | .error _ => none
  else none

end Sys2Proof
end

