-- ==== Sys2Proof/Config.lean ====
section
/-! DEFINITION. The implementation parameters of 00_scope.md R4.

No parameter is left free in the machine: the one the spec leaves `OPEN`, `PIPE_LATENCY`, is 0 in the model (R62) and an
argument of Machine/Pipeline.lean, where the staged implementation is modelled; `INSTANCES` is the length of the list in
Machine/Instances.lean. The widths are those of the types in Word.lean. -/

namespace Sys2Proof.Config

/-- CHANNELS: R, G and B are interleaved; A exists in the packed form only. -/
abbrev channels : Nat := 3
/-- CH_WIDTH. -/
abbrev chWidth : Nat := 8
/-- IL_WIDTH. -/
abbrev ilWidth : Nat := 24
/-- PACKED_WIDTH. -/
abbrev packedWidth : Nat := 32
/-- GETBIT_X_WIDTH. -/
abbrev getbitXWidth : Nat := 32
/-- GETBIT_I_WIDTH. -/
abbrev getbitIWidth : Nat := 5
/-- REQ_WIDTH. -/
abbrev reqWidth : Nat := 40
/-- RESP_WIDTH. -/
abbrev respWidth : Nat := 33
/-- OPCODE_WIDTH. -/
abbrev opcodeWidth : Nat := 2

/-- ALPHA_OUT: the alpha byte DEINT writes (00_scope.md R4, 42_deinterleave.md R47). -/
def alphaOut : Channel := 0xFF

/-- ACC_WIDTH: the 24-bit accumulator of IBYTES and IRGBA starts at 0 (41_interleave.md R41, D17). -/
def interleaveStart : Triple := 0

/-- ACC_WIDTH: each 8-bit accumulator of DEINT starts at 0 (42_deinterleave.md R48, D17). -/
def deInterleaveStart : Channel := 0

end Sys2Proof.Config
end

