-- ==== Sys2Proof/Machine/State.lean ====
section
/-! DEFINITION. The state of the machine, and the reasons a step can stop.

The block holds no architectural state (10_state.md R10): no register, program counter, flag, control register or memory
(R11 to R15, 20_memory.md R23). State is the block's surface and the record of a run: the requests the host has still to
present, those presented, the response to each, and the faulted-run mark of 60_exceptions.md R57 (log 1). -/

namespace Sys2Proof.Machine

/-- The block's one output (10_state.md R17, 30_encoding.md R37): `err` is 1 bit, `y` is 32 bits. -/
structure Response where
  err : Bool
  y   : ResultWord
  deriving DecidableEq, Repr

/-- Why the machine stops. ContractViolation is not among them: it has an effect the spec describes, a response, after
which the machine goes on (60_exceptions.md R51, R54). -/
inductive Fault where
  /-- Raised by `step` alone, when no request is left to present: the run has ended (60_exceptions.md R57).
  Safe: the machine stops where nothing is left to evaluate, and no response is recorded (log 3). -/
  | runEnded
  deriving DecidableEq, Repr

/-- Why an instruction has no meaning. -/
inductive Refusal where
  /-- Raised by an arm of `exec` whose instruction has no meaning yet: no arm does. Safe. -/
  | notModelled (mnemonic : String)
  deriving DecidableEq, Repr

/-- The state of the machine. -/
structure State where
  /-- The requests the host has still to present, the next one first (20_memory.md R28, 60_exceptions.md R57). -/
  pending : List Request
  /-- The requests presented so far, oldest first; the last is the word `W` at the input (10_state.md R16). -/
  presented : List Request
  /-- The response to each presented request, oldest first (60_exceptions.md R57); the last is the one the block drives
  (10_state.md R17). -/
  responses : List Response
  /-- The faulted-run mark, kept by the model and not by the hardware (60_exceptions.md R57, R54). -/
  faulted : Bool
  deriving DecidableEq, Repr

/-- The machine before any request. The block has nothing to reset (70_reset_and_hazards.md R58); that no request has been
given, presented or answered is the model's choice (log 2). DESIGN CHOICE. -/
def State.reset : State where
  pending := []
  presented := []
  responses := []
  faulted := false

end Sys2Proof.Machine
end

