-- ==== Sys2Proof/Machine/Flags.lean ====
section
/-! DEFINITION. The two one-bit conditions of the model.

The block has no flag and no condition code (10_state.md R13): no operation reads or writes one. The `err` bit is an
output of the one request it answers; the faulted-run mark is the model's own. -/

namespace Sys2Proof.Machine

/-- The `err` bit of an operation's own result (10_state.md R17). -/
def errOfResult : Bool := false

/-- The `err` bit of a contract violation, its whole cause code (60_exceptions.md R50). -/
def errOfViolation : Bool := true

/-- The faulted-run mark after a response: set by `err = 1`, never cleared (60_exceptions.md R57). -/
def markAfter (faulted : Bool) (r : Response) : Bool := faulted || r.err

end Sys2Proof.Machine
end

