-- ==== Sys2Proof/Machine/Ops.lean ====
section
/-! DEFINITION. The operations the meanings share: the bit primitives of the pseudocode (00_scope.md R6, R8), what
happens to a request and its response, and ContractViolation. -/

namespace Sys2Proof.Machine

/-! ### Bit primitives -/

/-- `getBit(x, i)`, the value of bit `i` of `x`: `(x >> i) & 1` (40_bit_select.md R40). -/
def getBit {n : Nat} (x : BitVec n) (i : Nat) : BitVec 1 := ((x >>> i) &&& 1#n).setWidth 1

/-- `t <- (t << 1) | bit`: "each append = shift-left-1 then OR" (41_interleave.md R41). -/
def appendBit {n : Nat} (t : BitVec n) (bit : BitVec 1) : BitVec n := (t <<< 1) ||| bit.setWidth n

/-- The indices of `for i from 7 downto 0`. -/
def sevenDownToZero : List Nat := [7, 6, 5, 4, 3, 2, 1, 0]

/-- The indices of `for i from 0 to 7`. -/
def zeroToSeven : List Nat := [0, 1, 2, 3, 4, 5, 6, 7]

/-- The value whose bit `k` is `f k`, for the closed forms. -/
def ofBits : (n : Nat) → (Nat → Bool) → BitVec n
  | 0, _ => 0#0
  | n + 1, f => BitVec.cons (f n) (ofBits n f)

/-! ### The response word (30_encoding.md R37) -/

/-- The 33-bit response `err ‖ Y[31:0]`. -/
def Response.toBits (r : Response) : BitVec 33 := BitVec.ofBool r.err ++ r.y

/-- The response read from its 33 bits: `err` is bit 32, `Y` bits 31..0. -/
def Response.ofBits (b : BitVec 33) : Response := ⟨b.getLsbD 32, b.extractLsb' 0 32⟩

/-! ### The interface -/

/-- The word at the request input: the last one presented, none before the first (10_state.md R16). -/
def State.request (s : State) : Option Request := s.presented.getLast?

/-- The response the block drives: the one to the last request presented (10_state.md R17). -/
def State.response (s : State) : Option Response := s.responses.getLast?

/-- The host adds a request at the end of its list (20_memory.md R28). -/
def State.submit (s : State) (w : Request) : State := { s with pending := s.pending ++ [w] }

/-- The host presents its next request: the word leaves the list and stands at the input (20_memory.md R27, R28).
None when no request is left. -/
def State.present (s : State) : Option (Request × State) :=
  match s.pending with
  | [] => none
  | w :: rest => some (w, { s with pending := rest, presented := s.presented ++ [w] })

/-- The block's response is recorded, and the run marked if it has `err = 1` (60_exceptions.md R57). -/
def State.record (s : State) (r : Response) : State :=
  { s with responses := s.responses ++ [r], faulted := markAfter s.faulted r }

/-- `resp <- (0, Y)` (00_scope.md R8). -/
def respond (y : ResultWord) (s : State) : Host.Outcome State Fault Refusal :=
  .next (s.record ⟨errOfResult, y⟩)

/-- `raise ContractViolation()`: the block drives `err = 1` and `Y = 0x00000000` (60_exceptions.md R51). That is its whole
effect: no state is saved, no mode changes, control goes nowhere and there is no return (R54). -/
def raiseContractViolation (s : State) : Host.Outcome State Fault Refusal :=
  .next (s.record ⟨errOfViolation, 0x00000000#32⟩)

end Sys2Proof.Machine
end

