-- ==== Sys2Proof/Machine/Operands.lean ====
section
/-! DEFINITION. The operand layouts (10_state.md R19 to R22) and the closed forms of the interleaved layout
(41_interleave.md R43, 42_deinterleave.md R46). -/

namespace Sys2Proof.Machine

/-! ### The packed RGBA word (10_state.md R21) -/

/-- `R = P[31:24]`. -/
def channelR (p : Packed) : Channel := p.extractLsb' 24 8
/-- `G = P[23:16]`. -/
def channelG (p : Packed) : Channel := p.extractLsb' 16 8
/-- `B = P[15:8]`. -/
def channelB (p : Packed) : Channel := p.extractLsb' 8 8
/-- `A = P[7:0]`. -/
def channelA (p : Packed) : Channel := p.extractLsb' 0 8

/-- `(R << 24) | (G << 16) | (B << 8) | A` (10_state.md R21, 42_deinterleave.md R47). -/
def packRgba (r g b a : Channel) : Packed :=
  (r.setWidth 32 <<< 24) ||| (g.setWidth 32 <<< 16) ||| (b.setWidth 32 <<< 8) ||| a.setWidth 32

/-! ### The interleaved triple (10_state.md R20) -/

/-- The triple with `T[3k+2] = R[k]`, `T[3k+1] = G[k]`, `T[3k] = B[k]`. -/
def tripleOfChannels (r g b : Channel) : Triple :=
  ofBits 24 fun n =>
    if n % 3 = 2 then r.getLsbD (n / 3) else if n % 3 = 1 then g.getLsbD (n / 3) else b.getLsbD (n / 3)

/-- The channel `c` of a triple (0 for R, 1 for G, 2 for B): its bit `k` is bit `3k + (2 - c)` of the triple
(41_interleave.md R43). -/
def channelOfTriple (c : Nat) (t : Triple) : Channel := ofBits 8 fun k => t.getLsbD (3 * k + (2 - c))

end Sys2Proof.Machine
end

