-- ==== Sys2Proof/Machine/BitSelect.lean ====
section
/-! DEFINITION. The bit select: GETBIT (40_bit_select.md). -/

namespace Sys2Proof.Machine

/-- `GETBIT(x, i) = (x >> i) & 1`, 1 for "true" (R40). -/
def selectBit (x : BitVec 32) (i : BitVec 5) : BitVec 1 := getBit x i.toNat

/-- GETBIT: `resp <- (0, zext_32(GETBIT(x, i)))` (R40). -/
def execGetbit (x : BitVec 32) (i : BitVec 5) (s : State) : Host.Outcome State Fault Refusal :=
  respond ((selectBit x i).setWidth 32) s

end Sys2Proof.Machine
end

