-- ==== Sys2Proof/Machine/Deinterleave.lean ====
section
/-! DEFINITION. The de-interleave: DEINT (42_deinterleave.md). -/

namespace Sys2Proof.Machine

/-- One accumulator of R46's loop: for `j` from 7 down to 0 append bit `3j + offset` of `s`; the accumulator is 8 bits
wide. -/
def gatherFrom (acc : Channel) (offset : Nat) (s : Triple) : Channel :=
  sevenDownToZero.foldl (fun acc j => appendBit acc (getBit s (3 * j + offset))) acc

/-- R46 with its three accumulators holding `r`, `g` and `b` at the start: bits `3j + 2` go to `r`, `3j + 1` to `g`, `3j`
to `b`, and the word is packed with alpha 0xFF as R47 says (not as the formula of 90_conflicts.md C2). -/
def deInterleavePcmFrom (r g b : Channel) (s : Triple) : Packed :=
  packRgba (gatherFrom r 2 s) (gatherFrom g 1 s) (gatherFrom b 0 s) Config.alphaOut

/-- `DEINT(s)`: all three accumulators start at 0 (R48, D17). -/
def deInterleavePcm (s : Triple) : Packed :=
  deInterleavePcmFrom Config.deInterleaveStart Config.deInterleaveStart Config.deInterleaveStart s

/-- DEINT: `resp <- (0, DEINT(s))` (R46). -/
def execDeint (pcm24 : Triple) (s : State) : Host.Outcome State Fault Refusal :=
  respond (deInterleavePcm pcm24) s

end Sys2Proof.Machine
end

