-- ==== Sys2Proof/Machine/Interleave.lean ====
section
/-! DEFINITION. The interleave family: IBYTES and IRGBA (41_interleave.md). -/

namespace Sys2Proof.Machine

/-- R41's loop from an accumulator that holds `t`: for `i` from 7 down to 0 append `R[i]`, then `G[i]`, then `B[i]`. -/
def interleaveBytesFrom (t : Triple) (r g b : Channel) : Triple :=
  sevenDownToZero.foldl
    (fun t i => appendBit (appendBit (appendBit t (getBit r i)) (getBit g i)) (getBit b i)) t

/-- `IBYTES(r, g, b)`: the accumulator starts at 0 (R41, D17). -/
def interleaveBytes (r g b : Channel) : Triple := interleaveBytesFrom Config.interleaveStart r g b

/-- R42's loop from an accumulator that holds `t`: for `i` from 0 to 7 append the bits at positions `31 - i`, `23 - i`
and `15 - i`. -/
def interleaveRgbaFrom (t : Triple) (p : Packed) : Triple :=
  zeroToSeven.foldl
    (fun t i => appendBit (appendBit (appendBit t (getBit p (31 - i))) (getBit p (23 - i))) (getBit p (15 - i))) t

/-- `IRGBA(p)`: the accumulator starts at 0 (R42, D17). -/
def interleaveRgba (p : Packed) : Triple := interleaveRgbaFrom Config.interleaveStart p

/-- IBYTES: `resp <- (0, zext_32(IBYTES(r, g, b)))` (R41). -/
def execIbytes (r g b : Channel) (s : State) : Host.Outcome State Fault Refusal :=
  respond ((interleaveBytes r g b).setWidth 32) s

/-- IRGBA: `resp <- (0, zext_32(IRGBA(p)))` (R42). -/
def execIrgba (p : Packed) (s : State) : Host.Outcome State Fault Refusal :=
  respond ((interleaveRgba p).setWidth 32) s

end Sys2Proof.Machine
end

