-- ==== Sys2Proof/Machine/Dispatch.lean ====
section
/-! DEFINITION. One arm per instruction. -/

namespace Sys2Proof.Machine

/-- The meaning of each instruction: the response to the request just presented. -/
def exec (i : Instr) (s : State) : Host.Outcome State Fault Refusal :=
  match i with
  | .ibytes r g b => Sys2Proof.Machine.execIbytes r g b s
  | .irgba rgba => Sys2Proof.Machine.execIrgba rgba s
  | .deint pcm24 => Sys2Proof.Machine.execDeint pcm24 s
  | .getbit x n => Sys2Proof.Machine.execGetbit x n s

end Sys2Proof.Machine
end

