-- ==== Sys2Proof/Machine/Step.lean ====
section
/-! DEFINITION. One step: one request is presented and answered (20_memory.md R27). -/

namespace Sys2Proof.Machine

/-- The host presents its next request and the block answers it: with the operation's result, or with the fault response
if a must-be-zero bit is set (30_encoding.md R35). With no request left the run has ended (60_exceptions.md R57, log 3). -/
def step (s : State) : Host.Outcome State Fault Refusal :=
  match s.present with
  | none => .fault .runEnded
  | some (w, s) =>
    match decode w with
    | .ok i => exec i s
    | .error .contractViolation => raiseContractViolation s

/-- The table word `w` of `nbits` bits stands as the host's next request; the requests it had still to present follow. A
program is given to the machine from outside it (log 5). -/
def State.withFetchWord (s : State) (nbits w : Nat) : State :=
  { s with pending := tableRequest nbits w :: s.pending }

end Sys2Proof.Machine
end

