-- ==== Sys2Proof/Machine/Assembler.lean ====
section
/-! DEFINITION. The assembler's text (30_encoding.md R38, R39): one request per line; mnemonics are case-insensitive;
operands are unsigned integers in decimal, `0x` hexadecimal or `0b` binary; `;` starts a comment. A text line is a list of
characters. Blanks, the letter case of hexadecimal digits and empty lines are the model's conventions (log 8). -/

namespace Sys2Proof.Machine

/-- Why a text line is refused. R38 gives no reasons a name: these three are the model's choice (log 14). DESIGN CHOICE. -/
inductive AsmError where
  /-- The line's first word is none of the four mnemonics and not `.req`, or the number of operands is not the one R38
  gives it. -/
  | noSuchSyntax
  /-- An operand is no unsigned integer in one of the three notations. -/
  | badNumber
  /-- An operand is outside its range (R38, R39). -/
  | outOfRange
  deriving DecidableEq, Repr

def isBlank (c : Char) : Bool := c == ' ' || c == '\t' || c == '\r'

/-- The text before the first `;`. -/
def stripComment (text : List Char) : List Char := text.takeWhile (· != ';')

def trimBlanks (text : List Char) : List Char :=
  ((text.dropWhile isBlank).reverse.dropWhile isBlank).reverse

/-- The pieces between the commas. -/
def splitCommas : List Char → List (List Char)
  | [] => [[]]
  | c :: cs =>
    if c = ',' then [] :: splitCommas cs
    else
      match splitCommas cs with
      | [] => [[c]]
      | piece :: pieces => (c :: piece) :: pieces

/-- The value of one digit, in either letter case. -/
def digitValue (c : Char) : Nat :=
  let n := c.toNat
  if 48 ≤ n ∧ n ≤ 57 then n - 48
  else if 97 ≤ n ∧ n ≤ 102 then n - 87
  else if 65 ≤ n ∧ n ≤ 70 then n - 55
  else 16

/-- Digits in a base, most significant first; at least one, and each below the base. -/
def readDigits (base : Nat) (digits : List Char) : Option Nat :=
  if digits.isEmpty || digits.any (fun c => decide (base ≤ digitValue c)) then none
  else some (digits.foldl (fun v c => v * base + digitValue c) 0)

/-- An unsigned integer in decimal, `0x` hexadecimal or `0b` binary. -/
def readNumber : List Char → Option Nat
  | '0' :: 'x' :: digits => readDigits 16 digits
  | '0' :: 'b' :: digits => readDigits 2 digits
  | digits => readDigits 10 digits

/-- The line a word and its operands make (R38, R39). -/
def lineOf (word : List Char) (operands : List Nat) : Option Line :=
  let word := word.map Char.toLower
  if word = ['i', 'b', 'y', 't', 'e', 's'] then
    match operands with
    | [r, g, b] => some (.ibytes r g b)
    | _ => none
  else if word = ['i', 'r', 'g', 'b', 'a'] then
    match operands with
    | [rgba] => some (.irgba rgba)
    | _ => none
  else if word = ['d', 'e', 'i', 'n', 't'] then
    match operands with
    | [pcm24] => some (.deint pcm24)
    | _ => none
  else if word = ['g', 'e', 't', 'b', 'i', 't'] then
    match operands with
    | [x, i] => some (.getbit x i)
    | _ => none
  else if word = ['.', 'r', 'e', 'q'] then
    match operands with
    | [w] => some (.req w)
    | _ => none
  else none

/-- Read one text line; an empty line, or one that holds a comment only, gives no request (log 8). -/
def readLine (text : List Char) : Except AsmError (Option Line) :=
  let body := trimBlanks (stripComment text)
  let word := body.takeWhile fun c => !isBlank c
  let rest := body.dropWhile fun c => !isBlank c
  if body.isEmpty then .ok none
  else
    match ((splitCommas rest).map trimBlanks).mapM readNumber with
    | none => .error .badNumber
    | some operands =>
      match lineOf word operands with
      | none => .error .noSuchSyntax
      | some l => .ok (some l)

/-- Assemble a text, line by line, into the list of requests a host presents (R38). R38 says that a line is refused and not
what becomes of the rest of its text: that the whole text is refused at its first bad line, with that line's reason, and no
request of any other line is emitted, is the model's choice (log 14). DESIGN CHOICE. -/
def assembleText : List (List Char) → Except AsmError (List Request)
  | [] => .ok []
  | text :: texts =>
    match readLine text with
    | .error e => .error e
    | .ok none => assembleText texts
    | .ok (some l) =>
      match l.assemble with
      | none => .error .outOfRange
      | some w =>
        match assembleText texts with
        | .error e => .error e
        | .ok ws => .ok (w :: ws)

end Sys2Proof.Machine
end

