-- ==== Sys2Proof/Machine/Instances.lean ====
section
/-! DEFINITION. Several instances of the block (20_memory.md R27, 60_exceptions.md R56, D16): they share nothing, so each
is a machine of its own, and which of them steps next is chosen from outside. -/

namespace Sys2Proof.Machine

/-- The instances, any number of them (INSTANCES of 00_scope.md R4). -/
abbrev Instances := List State

/-- Instance `k` answers its next request. None if there is no such instance or it has no next state. -/
def Instances.stepAt (sys : Instances) (k : Nat) : Option Instances :=
  match sys[k]? with
  | none => none
  | some s =>
    match step s with
    | .next t => some (sys.set k t)
    | .fault _ => none
    | .refused _ => none

end Sys2Proof.Machine
end

