-- ==== Sys2Proof/Machine/Eval.lean ====
section
/-! DEFINITION. The block as one function of the request word, `resp = eval(W)` (10_state.md R10), written line for line
from 30_encoding.md R35, beside the machine's own way through `decode` and `exec`. -/

namespace Sys2Proof.Machine

/-- `(0, Y)`. -/
def resultResponse (y : ResultWord) : Response := ⟨false, y⟩

/-- The response to ContractViolation (60_exceptions.md R51). -/
def violationResponse : Response := ⟨true, 0#32⟩

/-- `eval(W)` of R35. -/
def eval (w : Request) : Response :=
  if Request.op w = 0b00#2 then
    if w.extractLsb' 24 14 ≠ 0#14 then violationResponse
    else resultResponse
      ((interleaveBytes ((Request.data w).extractLsb' 16 8) ((Request.data w).extractLsb' 8 8)
        ((Request.data w).extractLsb' 0 8)).setWidth 32)
  else if Request.op w = 0b01#2 then
    if w.extractLsb' 32 6 ≠ 0#6 then violationResponse
    else resultResponse ((interleaveRgba (Request.data w)).setWidth 32)
  else if Request.op w = 0b10#2 then
    if w.extractLsb' 24 14 ≠ 0#14 then violationResponse
    else resultResponse (deInterleavePcm ((Request.data w).extractLsb' 0 24))
  else
    if w.extractLsb' 37 1 ≠ 0#1 then violationResponse
    else resultResponse ((selectBit (Request.data w) (w.extractLsb' 32 5)).setWidth 32)

end Sys2Proof.Machine
end

