-- ==== Sys2Proof/Machine/Pipeline.lean ====
section
/-! DEFINITION. An implementation with `PIPE_LATENCY` register stages between request and response
(70_reset_and_hazards.md R58, R62, D14). It is no part of the machine, whose latency is 0; it is here so that what the
spec promises of such an implementation can be stated. -/

namespace Sys2Proof.Machine

/-- The register stages, the one nearest the output first; their number is `PIPE_LATENCY`. Their contents after reset are
unspecified (R58), so a statement takes them as arbitrary. -/
abbrev Pipeline := List Response

/-- One clock: `w` enters, the oldest stage leaves. With no stage the response to `w` itself leaves. -/
def Pipeline.clock (p : Pipeline) (w : Request) : Response × Pipeline :=
  match p with
  | [] => (eval w, [])
  | r :: stages => (r, stages ++ [eval w])

/-- What comes out, clock by clock, while a list of requests goes in. -/
def Pipeline.outputs (p : Pipeline) : List Request → List Response
  | [] => []
  | w :: ws => (p.clock w).1 :: Pipeline.outputs (p.clock w).2 ws

end Sys2Proof.Machine
end

