-- ==== Sys2Proof/Safety.lean ====
section
/-! DEFINITION. The terms statements use: what one exchange leaves, the invariant of a run, what a safe run is, and the
host's view of a run. -/

namespace Sys2Proof.Machine

/-- What is left when request `w`, the first of `w :: rest`, has been presented and answered with `r`: `w` has moved
from the host's list to the input, `r` is recorded, and the mark of 60_exceptions.md R57 is set if `r` has `err = 1`. -/
def State.afterExchange (s : State) (w : Request) (rest : List Request) (r : Response) : State where
  pending := rest
  presented := s.presented ++ [w]
  responses := s.responses ++ [r]
  faulted := s.faulted || r.err

/-- The record of a run is right: the responses are `eval` of the presented requests, in their order (20_memory.md R27),
and the run is marked exactly when one of them has `err = 1` (60_exceptions.md R57). -/
def State.RunInv (s : State) : Prop :=
  s.responses = s.presented.map eval ∧ s.faulted = s.responses.any (·.err)

/-- No response of the run so far has `err = 1` (60_exceptions.md R57, D12). -/
def State.FaultFree (s : State) : Prop := s.faulted = false

/-- The host has masked its operands to their documented width (00_scope.md, glossary "Pre-masked"; 30_encoding.md
R34). -/
def PreMasked (w : Request) : Prop := w &&& mustBeZeroMask (Request.op w) = 0#40

/-- What is left when the host has presented all of its requests (60_exceptions.md R57). -/
def State.afterRun (s : State) : State where
  pending := []
  presented := s.presented ++ s.pending
  responses := s.responses ++ s.pending.map eval
  faulted := s.faulted || (s.pending.map eval).any (·.err)

/-- As many steps as the host has requests. -/
def runAll (s : State) : Host.Outcome State Fault Refusal := Sys2Proof.core.run s.pending.length s

end Sys2Proof.Machine
end

