-- ==== Sys2Proof/Certificates/Slice0/Obligations.lean ====
section
/-! DEFINITION. The statements about the block, for the provers. `R<n>` is a rule of spec/; "log <n>" is
notes/assumptions/<n>.md. -/

open Sys2Proof Sys2Proof.Machine

/-! ### Reset, the step, the end of a run -/

/-- The model's choice (log 2): before any request nothing has been given, presented or answered, and the run is not
marked. -/
def Obligations.ResetHoldsNoRun : Prop :=
  State.reset.pending = [] ∧ State.reset.presented = [] ∧ State.reset.responses = [] ∧
    State.reset.faulted = false ∧ State.reset.request = none ∧ State.reset.response = none

/-- The record of a run is right at reset (the invariant of `RunInvariantKeptByEveryStep`). It rests on the reset values
the model chose (log 2): the empty record and the clear mark are the model's choice, not the spec's. -/
def Obligations.ResetMeetsRunInvariant : Prop := State.reset.RunInv

/-- A few words written out from the encodings of opcode_table.json decode to the instructions they stand for, and one
with a must-be-zero bit set to none. -/
def Obligations.SpecWordsDecodeToTheirInstructions : Prop :=
  decode 0b00_000000_00000000_11111111_10111000_01001100#40 = .ok (.ibytes 255#8 184#8 76#8) ∧
  decode 0b01_000000_11111111_10111000_01001100_00000000#40 = .ok (.irgba 0xFFB84C00#32) ∧
  decode 0b10_000000_00000000_11010111_01101111_01100100#40 = .ok (.deint 0xD76F64#24) ∧
  decode 0b11_010111_00000000_11010111_01101111_01100100#40 = .ok (.getbit 0xD76F64#32 23#5) ∧
  decode 0b00_000000_00000001_11111111_10111000_01001100#40 = .error .contractViolation

/-- A step runs the decoded instruction: when the host's next request decodes to `i`, the step is `exec i` once the
request has moved from the host's list to the input. -/
def Obligations.StepRunsDecodedInstruction : Prop :=
  ∀ (s : State) (w : Request) (rest : List Request) (i : Instr),
    s.pending = w :: rest → decode w = .ok i →
      step s = exec i
        { pending := rest, presented := s.presented ++ [w], responses := s.responses, faulted := s.faulted }

/-- The model's choice (log 3): when no request is left the run has ended, and a step stops by name. -/
def Obligations.StepStopsWhenRunHasEnded : Prop :=
  ∀ s : State, s.pending = [] → step s = .fault .runEnded

/-- How a word is placed for the next step is the model's choice (log 5: `withFetchWord` puts it at the head of the host's
list); how a table word is read is its deduction (log 9). Under them the word placed is the one the next step runs, the requests the
host had still to present follow, and the decoder reads the same instruction from it; a word of more than 40 bits is no
request. -/
def Obligations.FetchWordIsTheNextRequest : Prop :=
  (∀ (s : State) (i : Instr),
    decodeTableWord 40 (encode i).toNat = some i ∧
    step (s.withFetchWord 40 (encode i).toNat) = exec i
      { pending := s.pending, presented := s.presented ++ [encode i], responses := s.responses,
        faulted := s.faulted }) ∧
  ∀ nbits w : Nat, 40 < nbits → decodeTableWord nbits w = none

/-- From reset, with nothing initialised, the first request is evaluated like any other (R59). -/
def Obligations.FirstRequestIsEvaluatedLikeAnyOther : Prop :=
  ∀ (w : Request) (others : List Request) (s : State) (rest : List Request), s.pending = w :: rest →
    ∃ (r : Response) (t u : State),
      step { State.reset with pending := w :: others } = .next t ∧ t.responses = State.reset.responses ++ [r] ∧
      step s = .next u ∧ u.responses = s.responses ++ [r]

/-! ### What each instruction answers -/

/-- GETBIT answers bit `i` of `x`, 1 for true, and changes nothing else. -/
def Obligations.GetbitAnswersSelectedBit : Prop :=
  ∀ (x : BitVec 32) (i : BitVec 5) (s : State),
    exec (.getbit x i) s = .next
      { s with responses := s.responses ++ [⟨false, if x.getLsbD i.toNat then 1#32 else 0#32⟩] }

/-- IBYTES answers the triple that holds `r[k]`, `g[k]`, `b[k]` at bits `3k+2`, `3k+1`, `3k`, zero-extended, and changes
nothing else. -/
def Obligations.IbytesAnswersInterleavedTriple : Prop :=
  ∀ (r g b : Channel) (s : State), ∃ t : Triple,
    (∀ k < 8, t.getLsbD (3 * k + 2) = r.getLsbD k ∧ t.getLsbD (3 * k + 1) = g.getLsbD k ∧
      t.getLsbD (3 * k) = b.getLsbD k) ∧
    exec (.ibytes r g b) s = .next { s with responses := s.responses ++ [⟨false, t.setWidth 32⟩] }

/-- IRGBA answers the triple of the R (bits 31..24), G (23..16) and B (15..8) bytes of its operand, whatever the A byte,
and changes nothing else. -/
def Obligations.IrgbaAnswersInterleavedTriple : Prop :=
  ∀ (p : Packed) (s : State), ∃ t : Triple,
    (∀ k < 8, t.getLsbD (3 * k + 2) = p.getLsbD (24 + k) ∧ t.getLsbD (3 * k + 1) = p.getLsbD (16 + k) ∧
      t.getLsbD (3 * k) = p.getLsbD (8 + k)) ∧
    exec (.irgba p) s = .next { s with responses := s.responses ++ [⟨false, t.setWidth 32⟩] }

/-- DEINT answers the word with R at bits 31..24, G at 23..16, B at 15..8 and 255 at 7..0, and changes nothing else. -/
def Obligations.DeintAnswersPackedChannels : Prop :=
  ∀ (x : Triple) (s : State), ∃ y : ResultWord,
    (∀ k < 8, y.getLsbD (24 + k) = x.getLsbD (3 * k + 2) ∧ y.getLsbD (16 + k) = x.getLsbD (3 * k + 1) ∧
      y.getLsbD (8 + k) = x.getLsbD (3 * k) ∧ y.getLsbD k = true) ∧
    exec (.deint x) s = .next { s with responses := s.responses ++ [⟨false, y⟩] }

/-- No instruction changes anything but the record of responses, to which it adds one with `err = 0`: no flag, no
control register, no mode, and the host's list is as it was (R11 to R15, R26). -/
def Obligations.ExecOnlyRecordsOneResult : Prop :=
  ∀ (i : Instr) (s t : State), exec i s = .next t →
    t.pending = s.pending ∧ t.presented = s.presented ∧ t.faulted = s.faulted ∧
      ∃ y, t.responses = s.responses ++ [⟨false, y⟩]

/-- Every instruction completes in every state, a step completes whenever a request is left, and no step is refused. -/
def Obligations.EveryRequestIsAnswered : Prop :=
  (∀ (i : Instr) (s : State), ∃ t, exec i s = .next t) ∧
  (∀ s : State, s.pending ≠ [] → ∃ t, step s = .next t) ∧
  ∀ (s : State) (r : Refusal), step s ≠ .refused r

/-! ### The rules of the four operations, at the request -/

/-- R40 at the request word: operands, encoding, result, exception, corner cases and worked example of GETBIT. -/
def Obligations.GetbitRequestReadsBitOrFaults : Prop :=
  (∀ (s : State) (w : Request) (rest : List Request), s.pending = w :: rest → w.extractLsb' 38 2 = 0b11#2 →
    (w.getLsbD 37 = true → step s = .next (s.afterExchange w rest ⟨true, 0#32⟩)) ∧
    (w.getLsbD 37 = false →
      decode w = .ok (.getbit (w.extractLsb' 0 32) (w.extractLsb' 32 5)) ∧
      step s = .next (s.afterExchange w rest
        ⟨false, (w.extractLsb' 0 32 >>> (w.extractLsb' 32 5).toNat) &&& 1#32⟩))) ∧
  (∀ (i : BitVec 5) (s : State),
    exec (.getbit 0#32 i) s = .next { s with responses := s.responses ++ [⟨false, 0#32⟩] } ∧
    exec (.getbit 0xFFFFFFFF#32 i) s = .next { s with responses := s.responses ++ [⟨false, 1#32⟩] }) ∧
  (∀ (x : BitVec 32) (i : BitVec 5) (s : State), x.toNat ≤ 255 → 8 ≤ i.toNat →
    exec (.getbit x i) s = .next { s with responses := s.responses ++ [⟨false, 0#32⟩] }) ∧
  (∀ (x : BitVec 32) (s : State),
    exec (.getbit x 31#5) s = .next
      { s with responses := s.responses ++ [⟨false, if 2 ^ 31 ≤ x.toNat then 1#32 else 0#32⟩] }) ∧
  ∀ (s : State) (rest : List Request), s.pending = 0xCAFFB84C00#40 :: rest →
    step s = .next (s.afterExchange 0xCAFFB84C00#40 rest ⟨false, 0x00000001#32⟩)

/-- R41 at the request word: operands, encoding, result, exception, corner cases and worked example of IBYTES. -/
def Obligations.IbytesRequestInterleavesOrFaults : Prop :=
  (∀ (s : State) (w : Request) (rest : List Request), s.pending = w :: rest → w.extractLsb' 38 2 = 0b00#2 →
    (w.extractLsb' 24 14 ≠ 0#14 → step s = .next (s.afterExchange w rest ⟨true, 0#32⟩)) ∧
    (w.extractLsb' 24 14 = 0#14 →
      decode w = .ok (.ibytes (w.extractLsb' 16 8) (w.extractLsb' 8 8) (w.extractLsb' 0 8)) ∧
      ∃ t : Triple,
        (∀ k < 8, t.getLsbD (3 * k + 2) = w.getLsbD (16 + k) ∧ t.getLsbD (3 * k + 1) = w.getLsbD (8 + k) ∧
          t.getLsbD (3 * k) = w.getLsbD k) ∧
        step s = .next (s.afterExchange w rest ⟨false, t.setWidth 32⟩))) ∧
  (interleaveBytes 0 0 0 = 0x000000#24 ∧ interleaveBytes 255 255 255 = 0xFFFFFF#24 ∧
    interleaveBytes 255 0 0 = 0x924924#24 ∧ interleaveBytes 0 255 0 = 0x492492#24 ∧
    interleaveBytes 0 0 255 = 0x249249#24) ∧
  ∀ (s : State) (rest : List Request), s.pending = 0x0000FFB84C#40 :: rest →
    step s = .next (s.afterExchange 0x0000FFB84C#40 rest ⟨false, 0x00D76F64#32⟩)

/-- R42 at the request word: operands, encoding, result, exception, corner cases and worked example of IRGBA. -/
def Obligations.IrgbaRequestInterleavesOrFaults : Prop :=
  (∀ (s : State) (w : Request) (rest : List Request), s.pending = w :: rest → w.extractLsb' 38 2 = 0b01#2 →
    (w.extractLsb' 32 6 ≠ 0#6 → step s = .next (s.afterExchange w rest ⟨true, 0#32⟩)) ∧
    (w.extractLsb' 32 6 = 0#6 →
      decode w = .ok (.irgba (w.extractLsb' 0 32)) ∧
      interleaveRgba (w.extractLsb' 0 32) =
        interleaveBytes (w.extractLsb' 24 8) (w.extractLsb' 16 8) (w.extractLsb' 8 8) ∧
      ∃ t : Triple,
        (∀ k < 8, t.getLsbD (3 * k + 2) = w.getLsbD (24 + k) ∧ t.getLsbD (3 * k + 1) = w.getLsbD (16 + k) ∧
          t.getLsbD (3 * k) = w.getLsbD (8 + k)) ∧
        step s = .next (s.afterExchange w rest ⟨false, t.setWidth 32⟩))) ∧
  (∀ p q : Packed, p.extractLsb' 8 24 = q.extractLsb' 8 24 → interleaveRgba p = interleaveRgba q) ∧
  (interleaveRgba 0xFFFFFF00#32 = 0xFFFFFF#24 ∧ interleaveRgba 0x000000FF#32 = 0#24 ∧
    interleaveRgba 0xFFB84C00#32 = interleaveRgba 0xFFB84CFF#32) ∧
  ∀ (s : State) (rest : List Request), s.pending = 0x40FFB84C00#40 :: rest →
    step s = .next (s.afterExchange 0x40FFB84C00#40 rest ⟨false, 0x00D76F64#32⟩) ∧
    interleaveRgba 0xFFB84C00#32 = interleaveBytes 255 184 76

/-- R46 at the request word: operands, encoding, result, exception, corner cases and worked example of DEINT. -/
def Obligations.DeintRequestDeinterleavesOrFaults : Prop :=
  (∀ (s : State) (w : Request) (rest : List Request), s.pending = w :: rest → w.extractLsb' 38 2 = 0b10#2 →
    (w.extractLsb' 24 14 ≠ 0#14 → step s = .next (s.afterExchange w rest ⟨true, 0#32⟩)) ∧
    (w.extractLsb' 24 14 = 0#14 →
      decode w = .ok (.deint (w.extractLsb' 0 24)) ∧
      ∃ y : ResultWord,
        (∀ k < 8, y.getLsbD (24 + k) = w.getLsbD (3 * k + 2) ∧ y.getLsbD (16 + k) = w.getLsbD (3 * k + 1) ∧
          y.getLsbD (8 + k) = w.getLsbD (3 * k)) ∧
        y.extractLsb' 0 8 = 0xFF#8 ∧
        step s = .next (s.afterExchange w rest ⟨false, y⟩))) ∧
  (deInterleavePcm 0x000000#24 = 0x000000FF#32 ∧ deInterleavePcm 0xFFFFFF#24 = 0xFFFFFFFF#32 ∧
    ∀ x : Triple, deInterleavePcm x ≠ 0#32) ∧
  ∀ (s : State) (rest : List Request), s.pending = 0x8000D76F64#40 :: rest →
    step s = .next (s.afterExchange 0x8000D76F64#40 rest ⟨false, 0xFFB84CFF#32⟩)

/-! ### Layouts and laws of the operations -/

/-- The loops of the pseudocode are the bit permutations of the closed forms (R9). -/
def Obligations.LoopsEqualClosedForms : Prop :=
  (∀ r g b : Channel, interleaveBytes r g b = tripleOfChannels r g b) ∧
  (∀ p : Packed, interleaveRgba p = tripleOfChannels (channelR p) (channelG p) (channelB p)) ∧
  ∀ x : Triple,
    deInterleavePcm x = channelOfTriple 0 x ++ channelOfTriple 1 x ++ channelOfTriple 2 x ++ 0xFF#8

/-- R20: the layout of an interleaved triple, and that it is a bijection. -/
def Obligations.TripleLayoutIsABijection : Prop :=
  (∀ (r g b : Channel), ∀ k < 8,
    (interleaveBytes r g b).getLsbD (3 * k + 2) = r.getLsbD k ∧
    (interleaveBytes r g b).getLsbD (3 * k + 1) = g.getLsbD k ∧
    (interleaveBytes r g b).getLsbD (3 * k) = b.getLsbD k) ∧
  Function.Bijective fun c : Channel × Channel × Channel => interleaveBytes c.1 c.2.1 c.2.2

/-- R21: the layout of a packed RGBA word; it is the input of IRGBA and, with `A = 0xFF`, the output of DEINT. -/
def Obligations.PackedWordLayout : Prop :=
  (∀ p : Packed,
    channelR p = p.extractLsb' 24 8 ∧ channelG p = p.extractLsb' 16 8 ∧ channelB p = p.extractLsb' 8 8 ∧
    channelA p = p.extractLsb' 0 8 ∧
    p = channelR p ++ channelG p ++ channelB p ++ channelA p ∧
    p = packRgba (channelR p) (channelG p) (channelB p) (channelA p)) ∧
  (∀ p : Packed, interleaveRgba p = interleaveBytes (channelR p) (channelG p) (channelB p)) ∧
  ∀ x : Triple, ∃ r g b : Channel, interleaveBytes r g b = x ∧ deInterleavePcm x = packRgba r g b 0xFF#8

/-- R43: group `k` of the result is `R[k] ‖ G[k] ‖ B[k]`; inverting bit `k` of one channel inverts the one result bit
`3k + (2 - c)` and no other, so no result bit depends on two channel bits and no channel bit reaches two result bits. -/
def Obligations.LaneBitReachesOneResultBit : Prop :=
  ∀ (r g b : Channel), ∀ k < 8,
    (interleaveBytes r g b).extractLsb' (3 * k) 3 =
      BitVec.ofBool (r.getLsbD k) ++ BitVec.ofBool (g.getLsbD k) ++ BitVec.ofBool (b.getLsbD k) ∧
    interleaveBytes (r ^^^ BitVec.twoPow 8 k) g b =
      interleaveBytes r g b ^^^ BitVec.twoPow 24 (3 * k + (2 - 0)) ∧
    interleaveBytes r (g ^^^ BitVec.twoPow 8 k) b =
      interleaveBytes r g b ^^^ BitVec.twoPow 24 (3 * k + (2 - 1)) ∧
    interleaveBytes r g (b ^^^ BitVec.twoPow 8 k) =
      interleaveBytes r g b ^^^ BitVec.twoPow 24 (3 * k + (2 - 2))

/-- R44: IRGBA of a packed word is IBYTES of its R, G and B bytes, and the bits its iteration `i` reads are those the other
loop's iteration `7 - i` reads. -/
def Obligations.IrgbaEqualsIbytesOfItsBytes : Prop :=
  ∀ (p : Packed),
    interleaveRgba p = interleaveBytes (p.extractLsb' 24 8) (p.extractLsb' 16 8) (p.extractLsb' 8 8) ∧
    (∀ s : State,
      exec (.irgba p) s = exec (.ibytes (p.extractLsb' 24 8) (p.extractLsb' 16 8) (p.extractLsb' 8 8)) s) ∧
    ∀ i < 8, getBit p (31 - i) = getBit (p.extractLsb' 24 8) (7 - i) ∧
      getBit p (23 - i) = getBit (p.extractLsb' 16 8) (7 - i) ∧
      getBit p (15 - i) = getBit (p.extractLsb' 8 8) (7 - i)

/-- R47: DEINT's word is `(R << 24) | (G << 16) | (B << 8) | 0xFF`, the layout IRGBA reads: IRGBA of it, whatever stands
in the A byte, gives the operand back. -/
def Obligations.DeintPacksChannelsAsIrgbaReadsThem : Prop :=
  ∀ r g b : Channel,
    deInterleavePcm (interleaveBytes r g b) =
      (r.setWidth 32 <<< 24) ||| (g.setWidth 32 <<< 16) ||| (b.setWidth 32 <<< 8) ||| 0xFF#32 ∧
    (deInterleavePcm (interleaveBytes r g b)).extractLsb' 0 8 = 255#8 ∧
    (deInterleavePcm (interleaveBytes r g b)).extractLsb' 8 8 = b ∧
    (deInterleavePcm (interleaveBytes r g b)).extractLsb' 16 8 = g ∧
    (deInterleavePcm (interleaveBytes r g b)).extractLsb' 24 8 = r ∧
    ∀ a : Channel, interleaveRgba (r ++ g ++ b ++ a) = interleaveBytes r g b

/-- R48: DEINT's accumulators start at 0, and their start values cannot be seen in the result. -/
def Obligations.DeintStartValuesAreShiftedOut : Prop :=
  (∀ x : Triple, deInterleavePcm x = deInterleavePcmFrom 0#8 0#8 0#8 x) ∧
  ∀ (r g b : Channel) (x : Triple), deInterleavePcmFrom r g b x = deInterleavePcm x

/-- The 24-bit interleave accumulator starts at 0, and its start value cannot be seen in the result. -/
def Obligations.InterleaveStartValueIsShiftedOut : Prop :=
  (∀ r g b : Channel, interleaveBytes r g b = interleaveBytesFrom 0#24 r g b) ∧
  (∀ p : Packed, interleaveRgba p = interleaveRgbaFrom 0#24 p) ∧
  (∀ (t : Triple) (r g b : Channel), interleaveBytesFrom t r g b = interleaveBytes r g b) ∧
  ∀ (t : Triple) (p : Packed), interleaveRgbaFrom t p = interleaveRgba p

/-- R49 (a) to (d): the inverse laws. -/
def Obligations.InterleaveAndDeinterleaveAreInverse : Prop :=
  (∀ r g b : Channel, deInterleavePcm (interleaveBytes r g b) =
    (r.setWidth 32 <<< 24) ||| (g.setWidth 32 <<< 16) ||| (b.setWidth 32 <<< 8) ||| 0xFF#32) ∧
  (∀ x : Triple, interleaveRgba (deInterleavePcm x) = x) ∧
  (∀ p : Packed, deInterleavePcm (interleaveRgba p) = (p &&& 0xFFFFFF00#32) ||| 0xFF#32) ∧
  Function.Injective deInterleavePcm ∧
  ∀ y : Packed, (∃ x, deInterleavePcm x = y) ↔ y.extractLsb' 0 8 = 0xFF#8

/-- The round trip through the machine, each request built by the host from the response before it (95_test_vectors.md S1,
S5): interleave, de-interleave and interleave again gives the first response. That the host adds each request between steps
with `State.submit` is the model's choice (log 6). -/
def Obligations.HostRoundTripGivesFirstResponseBack : Prop :=
  ∀ (s : State) (r g b : Channel), s.pending = [] →
    ∃ (t u v : State) (y z : ResultWord),
      step (s.submit (encode (.ibytes r g b))) = .next t ∧ t.response = some ⟨false, y⟩ ∧
      step (t.submit (encode (.deint (y.extractLsb' 0 24)))) = .next u ∧ u.response = some ⟨false, z⟩ ∧
      z = r ++ g ++ b ++ 0xFF#8 ∧
      step (u.submit (encode (.irgba z))) = .next v ∧ v.response = some ⟨false, y⟩ ∧
      v.faulted = s.faulted

/-! ### Encoding -/

/-- Decoding the word of an instruction gives the instruction back, with every operand. -/
def Obligations.DecodeOfEncodeIsTheInstruction : Prop := ∀ i : Instr, decode (encode i) = .ok i

/-- A word that decodes to an instruction is that instruction's word: each request has one meaning and one word. -/
def Obligations.EncodeOfDecodeIsTheWord : Prop := ∀ (w : Request) (i : Instr), decode w = .ok i → encode i = w

/-- R34: the must-be-zero masks of the four operations, and that a request matches exactly one row of the table (its
must-be-zero bits all zero) or raises ContractViolation. -/
def Obligations.MustBeZeroBitsDecideTheRow : Prop :=
  ∀ w : Request,
    (decode w = .error .contractViolation ↔
      (w.extractLsb' 38 2 = 0b00#2 ∧ w &&& 0x3FFF000000#40 ≠ 0#40) ∨
      (w.extractLsb' 38 2 = 0b01#2 ∧ w &&& 0x3F00000000#40 ≠ 0#40) ∨
      (w.extractLsb' 38 2 = 0b10#2 ∧ w &&& 0x3FFF000000#40 ≠ 0#40) ∨
      (w.extractLsb' 38 2 = 0b11#2 ∧ w &&& 0x2000000000#40 ≠ 0#40)) ∧
    ((∃ row, rowsAdmitting w = [row]) ↔ ¬ decode w = .error .contractViolation) ∧
    (rowsAdmitting w = [] ↔ decode w = .error .contractViolation)

/-- R35: the step answers `eval` of the request, and a decoder built from the opcode table alone is equivalent: a word
that a row admits executes that row, and a word that none admits raises ContractViolation. -/
def Obligations.StepAnswersEvalAsTheTableDecodes : Prop :=
  (∀ (s : State) (w : Request) (rest : List Request), s.pending = w :: rest →
    step s = .next (s.afterExchange w rest (eval w))) ∧
  (∀ w : Request, ∀ row ∈ opcodeRows, row.admits w = true →
    ∃ i, decode w = .ok i ∧ i.mnemonic = row.mnemonic ∧ (eval w).err = false) ∧
  ∀ w : Request, (∀ row ∈ opcodeRows, row.admits w = false) →
    decode w = .error .contractViolation ∧ eval w = ⟨true, 0#32⟩

/-- R37: the 33-bit response word, and what its fields hold for each operation and on a contract violation. -/
def Obligations.ResponseWordFormat : Prop :=
  (∀ r : Response, r.toBits.getLsbD 32 = r.err ∧ r.toBits.extractLsb' 0 32 = r.y ∧
    Response.ofBits r.toBits = r) ∧
  (∀ b : BitVec 33, (Response.ofBits b).toBits = b) ∧
  ∀ (s : State) (w : Request) (rest : List Request), s.pending = w :: rest →
    ∃ r : Response, step s = .next (s.afterExchange w rest r) ∧
      (decode w = .error .contractViolation ↔ r.err = true) ∧
      (r.err = true → r.y = 0#32) ∧
      (∀ a b c, decode w = .ok (.ibytes a b c) →
        r.y = (interleaveBytes a b c).setWidth 32 ∧ r.y.extractLsb' 24 8 = 0#8) ∧
      (∀ p, decode w = .ok (.irgba p) →
        r.y = (interleaveRgba p).setWidth 32 ∧ r.y.extractLsb' 24 8 = 0#8) ∧
      (∀ x, decode w = .ok (.deint x) → r.y = deInterleavePcm x) ∧
      (∀ x i, decode w = .ok (.getbit x i) →
        r.y.extractLsb' 1 31 = 0#31 ∧ r.y.getLsbD 0 = x.getLsbD i.toNat)

/-- The words of the assembler's lines: an operand outside its range is refused, a line in range gives the word of the
instruction with those operands. -/
def Obligations.AssembledLineIsTheInstructionsWord : Prop :=
  (∀ r g b : Nat, (r ≤ 255 ∧ g ≤ 255 ∧ b ≤ 255 →
      (Line.ibytes r g b).assemble = some (encode (.ibytes (BitVec.ofNat 8 r) (BitVec.ofNat 8 g) (BitVec.ofNat 8 b)))) ∧
    (255 < r ∨ 255 < g ∨ 255 < b → (Line.ibytes r g b).assemble = none)) ∧
  (∀ p : Nat, (p ≤ 0xFFFFFFFF → (Line.irgba p).assemble = some (encode (.irgba (BitVec.ofNat 32 p)))) ∧
    (0xFFFFFFFF < p → (Line.irgba p).assemble = none)) ∧
  (∀ x : Nat, (x ≤ 0xFFFFFF → (Line.deint x).assemble = some (encode (.deint (BitVec.ofNat 24 x)))) ∧
    (0xFFFFFF < x → (Line.deint x).assemble = none)) ∧
  (∀ x i : Nat, (x ≤ 0xFFFFFFFF ∧ i ≤ 31 →
      (Line.getbit x i).assemble = some (encode (.getbit (BitVec.ofNat 32 x) (BitVec.ofNat 5 i)))) ∧
    (0xFFFFFFFF < x ∨ 31 < i → (Line.getbit x i).assemble = none)) ∧
  ∀ i : Instr, i.toLine.assemble = some (encode i)

/-- R39: `.req w` emits the 40-bit word `w` as it stands; it alone writes a request with must-be-zero bits set, and such a
request raises ContractViolation; every other line writes one of the four instructions (no pseudo-instructions). -/
def Obligations.ReqDirectiveAloneWritesMustBeZeroBits : Prop :=
  (∀ w : Request, (Line.req w.toNat).assemble = some w) ∧
  (∀ n : Nat, 0xFFFFFFFFFF < n → (Line.req n).assemble = none) ∧
  (∀ (l : Line) (w : Request), l.assemble = some w → w &&& mustBeZeroMask (Request.op w) ≠ 0#40 →
    ∃ n, l = .req n) ∧
  (∀ (l : Line) (w : Request), l.assemble = some w → (∃ n, l = .req n) ∨ ∃ i : Instr, l = i.toLine ∧ w = encode i) ∧
  ∀ (s : State) (w : Request) (rest : List Request), s.pending = w :: rest →
    w &&& mustBeZeroMask (Request.op w) ≠ 0#40 → step s = .next (s.afterExchange w rest ⟨true, 0#32⟩)

/-- In the assembler's text a comment changes nothing, and neither does the letter case of a line's first word: of a mnemonic
as R38 says, and of the directive `.req` by the model's choice (log 8). That the blanks of the line read in the last clause
are ignored is the model's choice too (log 8). -/
def Obligations.AssemblerIgnoresCommentsAndMnemonicCase : Prop :=
  (∀ text comment : List Char, readLine (text ++ ';' :: comment) = readLine text) ∧
  (∀ (word word' : List Char) (operands : List Nat), word.map Char.toLower = word'.map Char.toLower →
    lineOf word operands = lineOf word' operands) ∧
  readLine ("GetBit 0b101, 0x1 ; bit 1".toList) = .ok (some (.getbit 5 1))

/-! ### ContractViolation -/

/-- R50: the one exception, its cause for each operation, and that nothing but the response records it. -/
def Obligations.ContractViolationHasOneCausePerOperation : Prop :=
  ∀ (s : State) (w : Request) (rest : List Request), s.pending = w :: rest →
    ∃ r : Response, step s = .next (s.afterExchange w rest r) ∧
      (r.err = true ↔
        (w.extractLsb' 38 2 = 0b00#2 ∧ w.extractLsb' 24 14 ≠ 0#14) ∨
        (w.extractLsb' 38 2 = 0b01#2 ∧ w.extractLsb' 32 6 ≠ 0#6) ∨
        (w.extractLsb' 38 2 = 0b10#2 ∧ w.extractLsb' 24 14 ≠ 0#14) ∨
        (w.extractLsb' 38 2 = 0b11#2 ∧ w.extractLsb' 37 1 ≠ 0#1)) ∧
      (r.err = true → r = ⟨true, 0#32⟩)

/-- R51: the fault response is `err = 1` and `Y = 0`; it belongs to the request that caused it: the earlier responses
stand, and the response to the next request is that request's own. -/
def Obligations.ContractViolationDrivesFaultResponse : Prop :=
  ∀ (s : State) (w : Request) (rest : List Request), s.pending = w :: rest →
    w &&& mustBeZeroMask (Request.op w) ≠ 0#40 →
      step s = .next
        { pending := rest, presented := s.presented ++ [w], responses := s.responses ++ [⟨true, 0#32⟩],
          faulted := true } ∧
      ∀ (w' : Request) (rest' : List Request), rest = w' :: rest' →
        Sys2Proof.core.run 2 s = .next
          { pending := rest', presented := s.presented ++ [w, w'],
            responses := s.responses ++ [⟨true, 0#32⟩, eval w'], faulted := true }

/-- R52: any two requests with must-be-zero bits set, however many, each get the single response of R51, `err = 1` and
`Y = 0`, which does not say which bits were set. -/
def Obligations.ViolationsAreNotToldApart : Prop :=
  ∀ (s s' : State) (w w' : Request) (rest rest' : List Request),
    s.pending = w :: rest → s'.pending = w' :: rest' →
    w &&& mustBeZeroMask (Request.op w) ≠ 0#40 → w' &&& mustBeZeroMask (Request.op w') ≠ 0#40 →
      ∃ t t' : State,
        step s = .next t ∧ t.responses = s.responses ++ [⟨true, 0#32⟩] ∧
        step s' = .next t' ∧ t'.responses = s'.responses ++ [⟨true, 0#32⟩]

/-- R54: a fault saves nothing, changes nothing and transfers control nowhere; the next request is evaluated as if no
fault had happened. -/
def Obligations.RequestAfterFaultIsEvaluatedAsIfNone : Prop :=
  ∀ (s : State) (bad w : Request) (rest : List Request), s.pending = bad :: w :: rest →
    bad &&& mustBeZeroMask (Request.op bad) ≠ 0#40 →
      ∃ (r : Response) (u : State),
        step s = .next
          { pending := w :: rest, presented := s.presented ++ [bad], responses := s.responses ++ [⟨true, 0#32⟩],
            faulted := true } ∧
        step
          { pending := w :: rest, presented := s.presented ++ [bad], responses := s.responses ++ [⟨true, 0#32⟩],
            faulted := true } = .next
          { pending := rest, presented := s.presented ++ [bad, w],
            responses := s.responses ++ [⟨true, 0#32⟩, r], faulted := true } ∧
        step { s with pending := w :: rest } = .next u ∧ u.responses = s.responses ++ [r]

/-! ### Runs -/

/-- The record of a run stays right in every step: the responses are `eval` of the presented requests in their order, and
the run is marked exactly when one of them has `err = 1`. -/
def Obligations.RunInvariantKeptByEveryStep : Prop :=
  ∀ s t : State, s.RunInv → step s = .next t → t.RunInv

/-- A step takes the first request off the host's list and answers it: requests are neither lost, nor added, nor
reordered, and each gets one response. -/
def Obligations.StepConsumesOneRequestInOrder : Prop :=
  ∀ s t : State, step s = .next t →
    t.presented ++ t.pending = s.presented ++ s.pending ∧
    s.pending.length = t.pending.length + 1 ∧
    ∃ r, t.responses = s.responses ++ [r] ∧ t.request = s.pending.head? ∧ t.response = some r

/-- R57: a run records a response for each request, is marked if one of them has `err = 1`, keeps the mark, and has no
request left when the last one has its response. -/
def Obligations.RunRecordsEveryResponseAndKeepsTheMark : Prop :=
  ∀ s : State,
    Sys2Proof.core.run s.pending.length s = .next
      { pending := [], presented := s.presented ++ s.pending, responses := s.responses ++ s.pending.map eval,
        faulted := s.faulted || (s.pending.map eval).any (·.err) } ∧
    ∀ (n : Nat) (t : State), Sys2Proof.core.run n s = .next t → s.faulted = true → t.faulted = true

/-- R10: the response is a function of the request presented and of nothing else; in two states that share only their next
request, the response is the same. -/
def Obligations.ResponseDependsOnRequestAlone : Prop :=
  ∃ f : Request → Response, ∀ (s : State) (w : Request) (rest : List Request), s.pending = w :: rest →
    ∃ t, step s = .next t ∧ t.responses = s.responses ++ [f w]

/-- Presenting one request any number of times gives the same response each time. -/
def Obligations.RepeatedRequestGetsOneResponse : Prop :=
  ∀ w : Request, ∃ r : Response, ∀ (s : State) (n : Nat), s.pending = List.replicate n w →
    ∃ t, runAll s = .next t ∧ t.responses = s.responses ++ List.replicate n r

/-- The value of each response does not depend on the order in which the requests are presented. -/
def Obligations.ResponsesDoNotDependOnOrder : Prop :=
  ∀ s s' : State, s.pending.Perm s'.pending →
    s.presented = [] → s.responses = [] → s'.presented = [] → s'.responses = [] →
    ∃ t t' : State, runAll s = .next t ∧ runAll s' = .next t' ∧
      (t.presented.zip t.responses).Perm (t'.presented.zip t'.responses)

/-- A host that masks its operands to their documented width never sees a fault, and one that does not always does. -/
def Obligations.RunIsFaultFreeIffPreMasked : Prop :=
  ∀ s : State, s.FaultFree →
    ((∃ t, runAll s = .next t ∧ t.FaultFree) ↔ ∀ w ∈ s.pending, PreMasked w)

/-! ### Implementations and instances -/

/-- An implementation with any number of register stages, whatever they hold at the start, gives after that many clocks the
responses in request order, each `eval` of its request; with none it is the block. R62 has no clock: that the stages are a
list that one clock shifts by one, so that the delay is their number in clocks, is the model's deduction (log 7). -/
def Obligations.PipelineDelaysResponsesInOrder : Prop :=
  (∀ (p : Pipeline) (ws : List Request),
    (p.outputs ws).length = ws.length ∧
    (p.outputs ws).drop p.length = (ws.map eval).take (ws.length - p.length)) ∧
  ∀ ws : List Request, Pipeline.outputs [] ws = ws.map eval

/-- Instances share nothing: one that answers leaves every other as it was, and two of them may answer in either order. -/
def Obligations.InstancesAreIndependent : Prop :=
  (∀ (sys sys' : Instances) (j k : Nat), sys.stepAt k = some sys' → j ≠ k → sys'[j]? = sys[j]?) ∧
  ∀ (sys : Instances) (j k : Nat), j ≠ k →
    (sys.stepAt j).bind (fun sys' => sys'.stepAt k) = (sys.stepAt k).bind (fun sys' => sys'.stepAt j)
end

