-- ==== Sys2Proof/Laws/Decode.lean ====
section
/-! SUPPORT. The bits of a request word and of its fields. -/

namespace Sys2Proof

theorem Request.getLsbD_op (w : Request) (k : Nat) :
    (Request.op w).getLsbD k = (decide (k < 2) && w.getLsbD (38 + k)) := by
  simp [Request.op, BitVec.getLsbD_extractLsb']

theorem Request.getLsbD_ext (w : Request) (k : Nat) :
    (Request.ext w).getLsbD k = (decide (k < 6) && w.getLsbD (32 + k)) := by
  simp [Request.ext, BitVec.getLsbD_extractLsb']

theorem Request.getLsbD_data (w : Request) (k : Nat) :
    (Request.data w).getLsbD k = (decide (k < 32) && w.getLsbD k) := by
  simp [Request.data, BitVec.getLsbD_extractLsb']

/-- A request word is its three fields (30_encoding.md R31). -/
theorem Request.fields_eq (w : Request) :
    w = Request.op w ++ Request.ext w ++ Request.data w := by
  apply BitVec.eq_of_getLsbD_eq
  intro k hk
  simp only [BitVec.getLsbD_append, Request.getLsbD_op, Request.getLsbD_ext, Request.getLsbD_data]
  by_cases h1 : k < 32
  · simp [h1]
  · by_cases h2 : k - 32 < 6
    · have e : 32 + (k - 32) = k := by omega
      simp [h1, h2, e]
    · have e : 38 + (k - 32 - 6) = k := by omega
      have h3 : k - 32 - 6 < 2 := by omega
      simp [h1, h2, e, h3]

end Sys2Proof
end

