-- ==== Sys2Proof/Laws/State.lean ====
section
/-! SUPPORT. One lemma per field per update of State, so that no later proof unfolds a record update. -/

namespace Sys2Proof.Machine

variable (s : State) (w : Request) (rest : List Request) (r : Response) (nbits v : Nat)

@[simp] theorem State.record_pending : (s.record r).pending = s.pending := rfl
@[simp] theorem State.record_presented : (s.record r).presented = s.presented := rfl
@[simp] theorem State.record_responses : (s.record r).responses = s.responses ++ [r] := rfl
@[simp] theorem State.record_faulted : (s.record r).faulted = markAfter s.faulted r := rfl

@[simp] theorem State.submit_pending : (s.submit w).pending = s.pending ++ [w] := rfl
@[simp] theorem State.submit_presented : (s.submit w).presented = s.presented := rfl
@[simp] theorem State.submit_responses : (s.submit w).responses = s.responses := rfl
@[simp] theorem State.submit_faulted : (s.submit w).faulted = s.faulted := rfl

@[simp] theorem State.withFetchWord_pending :
    (s.withFetchWord nbits v).pending = tableRequest nbits v :: s.pending := rfl
@[simp] theorem State.withFetchWord_presented : (s.withFetchWord nbits v).presented = s.presented := rfl
@[simp] theorem State.withFetchWord_responses : (s.withFetchWord nbits v).responses = s.responses := rfl
@[simp] theorem State.withFetchWord_faulted : (s.withFetchWord nbits v).faulted = s.faulted := rfl

@[simp] theorem State.afterExchange_pending : (s.afterExchange w rest r).pending = rest := rfl
@[simp] theorem State.afterExchange_presented :
    (s.afterExchange w rest r).presented = s.presented ++ [w] := rfl
@[simp] theorem State.afterExchange_responses :
    (s.afterExchange w rest r).responses = s.responses ++ [r] := rfl
@[simp] theorem State.afterExchange_faulted : (s.afterExchange w rest r).faulted = (s.faulted || r.err) := rfl

@[simp] theorem State.afterRun_pending : s.afterRun.pending = [] := rfl
@[simp] theorem State.afterRun_presented : s.afterRun.presented = s.presented ++ s.pending := rfl
@[simp] theorem State.afterRun_responses :
    s.afterRun.responses = s.responses ++ s.pending.map eval := rfl
@[simp] theorem State.afterRun_faulted :
    s.afterRun.faulted = (s.faulted || (s.pending.map eval).any (·.err)) := rfl

/-- Presenting the next request, all it can do: none when no request is left; else the request moves to the input. -/
theorem State.present_cases (s : State) :
    (s.pending = [] ∧ s.present = none) ∨
      ∃ w rest, s.pending = w :: rest ∧
        s.present = some (w, { s with pending := rest, presented := s.presented ++ [w] }) := by
  unfold State.present
  split
  · next h => exact .inl ⟨h, rfl⟩
  · next w rest h => exact .inr ⟨w, rest, h, rfl⟩

theorem State.present_eq_none {s : State} (h : s.pending = []) : s.present = none := by
  simp [State.present, h]

theorem State.present_eq_some {s : State} {w : Request} {rest : List Request} (h : s.pending = w :: rest) :
    s.present = some (w, { s with pending := rest, presented := s.presented ++ [w] }) := by
  simp [State.present, h]

/-- Recording `r` once `w` has been presented is the whole exchange. -/
theorem State.record_presented_eq (s : State) (w : Request) (rest : List Request) (r : Response) :
    ({ s with pending := rest, presented := s.presented ++ [w] } : State).record r = s.afterExchange w rest r :=
  rfl

end Sys2Proof.Machine
end

