-- ==== Sys2Proof/Laws/Ops.lean ====
section
/-! SUPPORT. One lemma per shared operation: what it answers, or the bits it gives. -/

namespace Sys2Proof.Machine

/-! ### Bit primitives -/

/-- `getBit x i` is one bit wide, and that bit is bit `i` of `x`. -/
theorem getLsbD_getBit {n : Nat} (x : BitVec n) (i k : Nat) :
    (getBit x i).getLsbD k = (decide (k = 0) && x.getLsbD i) := by
  unfold getBit
  cases k with
  | zero =>
    simp only [BitVec.getLsbD_setWidth, BitVec.getLsbD_and, BitVec.getLsbD_ushiftRight, BitVec.getLsbD_one]
    by_cases h : x.getLsbD i
    · have := BitVec.lt_of_getLsbD h
      simp [h]
      omega
    · simp [h]
  | succ k => simp

/-- Appending puts the bit at position 0 and moves every other bit up by one; the top bit is lost. -/
theorem getLsbD_appendBit {n : Nat} (t : BitVec n) (bit : BitVec 1) (k : Nat) :
    (appendBit t bit).getLsbD k =
      (decide (k < n) && if k = 0 then bit.getLsbD 0 else t.getLsbD (k - 1)) := by
  unfold appendBit
  cases k with
  | zero => simp
  | succ k => simp

/-- Bit `k` of `ofBits n f` is `f k`. -/
theorem getLsbD_ofBits (n : Nat) (f : Nat → Bool) (k : Nat) :
    (ofBits n f).getLsbD k = (decide (k < n) && f k) := by
  induction n with
  | zero => simp [ofBits]
  | succ n ih =>
    rw [ofBits, BitVec.getLsbD_cons, ih]
    by_cases h : k = n
    · simp [h]
    · have : decide (k ≤ n) = decide (k < n) := decide_eq_decide.mpr (by omega)
      simp [h, this]

/-! ### Responses -/

/-- `respond y` answers the state with `(0, y)` recorded; the mark is as it was. -/
theorem respond_eq (y : ResultWord) (s : State) :
    respond y s = .next { s with responses := s.responses ++ [⟨false, y⟩] } := by
  simp [respond, State.record, markAfter, errOfResult]

/-- `raiseContractViolation` answers the state with `(1, 0)` recorded and the mark set. -/
theorem raiseContractViolation_eq (s : State) :
    raiseContractViolation s =
      .next { s with responses := s.responses ++ [⟨true, 0#32⟩], faulted := true } := by
  simp [raiseContractViolation, State.record, markAfter, errOfViolation]

end Sys2Proof.Machine
end

