-- ==== Sys2Proof/Laws/PerInstr.lean ====
section
/-! SUPPORT. The family RowAdmits: the word of an instruction lies in its own row of the opcode table
(30_encoding.md R35). -/

namespace Sys2Proof.Laws.RowAdmits

/-- Some row of the table carries the instruction's mnemonic and admits its word. -/
def Statement (i : Instr) : Prop :=
  ∃ row ∈ opcodeRows, row.mnemonic = i.mnemonic ∧ row.admits (encode i) = true

/-- Two words are equal when their 40 bits are. -/
theorem admits_of_bits (row : OpcodeRow) (w : Request)
    (h : ∀ k < 40, (w &&& row.mask).getLsbD k = row.pattern.getLsbD k) : row.admits w = true := by
  simp only [OpcodeRow.admits, beq_iff_eq]
  exact BitVec.eq_of_getLsbD_eq h

theorem ibytes (r g b : Channel) : Statement (.ibytes r g b) := by
  refine ⟨⟨"IBYTES", 0xFFFF000000#40, 0x0000000000#40⟩, by decide, rfl, admits_of_bits _ _ fun k hk => ?_⟩
  simp only [encode, BitVec.getLsbD_and, BitVec.getLsbD_append]
  interval_cases k <;> simp

theorem irgba (p : Packed) : Statement (.irgba p) := by
  refine ⟨⟨"IRGBA", 0xFF00000000#40, 0x4000000000#40⟩, by decide, rfl, admits_of_bits _ _ fun k hk => ?_⟩
  simp only [encode, BitVec.getLsbD_and, BitVec.getLsbD_append]
  interval_cases k <;> simp

theorem deint (t : Triple) : Statement (.deint t) := by
  refine ⟨⟨"DEINT", 0xFFFF000000#40, 0x8000000000#40⟩, by decide, rfl, admits_of_bits _ _ fun k hk => ?_⟩
  simp only [encode, BitVec.getLsbD_and, BitVec.getLsbD_append]
  interval_cases k <;> simp

theorem getbit (x : BitVec 32) (i : BitVec 5) : Statement (.getbit x i) := by
  refine ⟨⟨"GETBIT", 0xE000000000#40, 0xC000000000#40⟩, by decide, rfl, admits_of_bits _ _ fun k hk => ?_⟩
  simp only [encode, BitVec.getLsbD_and, BitVec.getLsbD_append]
  interval_cases k <;> simp

end Sys2Proof.Laws.RowAdmits
end

