-- ==== Sys2Proof/Laws/Step.lean ====
section
/-! SUPPORT. What `exec` and `step` can do, said once. -/

namespace Sys2Proof.Machine

/-- The result word of an instruction. -/
def resultOf : Instr → ResultWord
  | .ibytes r g b => (interleaveBytes r g b).setWidth 32
  | .irgba p => (interleaveRgba p).setWidth 32
  | .deint t => deInterleavePcm t
  | .getbit x i => (selectBit x i).setWidth 32

/-- Each meaning responds with its result and does nothing else. -/
theorem exec_eq_respond (i : Instr) (s : State) : exec i s = respond (resultOf i) s := by
  cases i <;> rfl

/-- All a step can do: stop because no request is left, or present the next one and answer it, with the decoded
instruction's result or with the fault response. -/
theorem step_cases (s : State) :
    (s.pending = [] ∧ step s = .fault .runEnded) ∨
      ∃ w rest, s.pending = w :: rest ∧
        ((∃ i, decode w = .ok i ∧ step s = .next (s.afterExchange w rest ⟨false, resultOf i⟩)) ∨
          (decode w = .error .contractViolation ∧ step s = .next (s.afterExchange w rest ⟨true, 0#32⟩))) := by
  rcases s.present_cases with ⟨h, hp⟩ | ⟨w, rest, h, hp⟩
  · exact .inl ⟨h, by simp [step, hp]⟩
  · refine .inr ⟨w, rest, h, ?_⟩
    cases hd : decode w with
    | ok i =>
      refine .inl ⟨i, rfl, ?_⟩
      simp only [step, hp, hd, exec_eq_respond]
      rfl
    | error e =>
      cases e
      refine .inr ⟨rfl, ?_⟩
      simp only [step, hp, hd]
      rfl

/-! ### Running several steps -/

theorem run_succ_of_next (M : Host.Core) {s t : M.State} (h : M.step s = .next t) (n : Nat) :
    M.run (n + 1) s = M.run n t := by
  simp [Host.Core.run, h]

theorem run_succ_of_fault (M : Host.Core) {s : M.State} {r : M.Fault} (h : M.step s = .fault r) (n : Nat) :
    M.run (n + 1) s = .fault r := by
  simp [Host.Core.run, h]

theorem core_run_zero (s : State) : Sys2Proof.core.run 0 s = .next s := rfl

theorem core_run_succ_of_next {s t : State} (h : step s = .next t) (n : Nat) :
    Sys2Proof.core.run (n + 1) s = Sys2Proof.core.run n t :=
  run_succ_of_next Sys2Proof.core h n

theorem core_run_succ_of_fault {s : State} {r : Fault} (h : step s = .fault r) (n : Nat) :
    Sys2Proof.core.run (n + 1) s = .fault r :=
  run_succ_of_fault Sys2Proof.core h n

end Sys2Proof.Machine
end

