-- ==== Sys2Proof/Tests/Slice0.lean ====
section
/-! SUPPORT. Tests. Expected values are those of 30_encoding.md section 6 and 95_test_vectors.md, or written out by hand
from the encodings of opcode_table.json; the witnesses show that the hypotheses of the obligations can be met. -/

namespace Sys2Proof.Tests

open Sys2Proof.Machine

/-- A state whose host has one request left. -/
def oneRequest (w : Request) : State where
  pending := [w]
  presented := []
  responses := []
  faulted := false

/-- The response a step gives. -/
def answer (s : State) : Option Response :=
  match step s with
  | .next t => t.response
  | .fault _ => none
  | .refused _ => none

/-! ### The widths of the types are the parameters of 00_scope.md R4 -/

theorem test_widths :
    Request = BitVec Config.reqWidth ∧ Channel = BitVec Config.chWidth ∧ Triple = BitVec Config.ilWidth ∧
      Packed = BitVec Config.packedWidth ∧ Config.ilWidth = Config.channels * Config.chWidth :=
  ⟨rfl, rfl, rfl, rfl, rfl⟩

/-! ### WellFormed: an ill-formed line for each check, the boundary beside it -/

theorem test_ibytes_r_out_of_range :
    (Line.ibytes 256 0 0).wellFormed = false ∧ (Line.ibytes 255 255 255).wellFormed = true := by decide
theorem test_ibytes_g_out_of_range : (Line.ibytes 0 256 0).wellFormed = false := by decide
theorem test_ibytes_b_out_of_range : (Line.ibytes 0 0 256).wellFormed = false := by decide
theorem test_irgba_out_of_range :
    (Line.irgba 0x100000000).wellFormed = false ∧ (Line.irgba 0xFFFFFFFF).wellFormed = true := by decide
theorem test_deint_out_of_range :
    (Line.deint 0x1000000).wellFormed = false ∧ (Line.deint 0xFFFFFF).wellFormed = true := by decide
theorem test_getbit_x_out_of_range :
    (Line.getbit 0x100000000 0).wellFormed = false ∧ (Line.getbit 0xFFFFFFFF 31).wellFormed = true := by decide
theorem test_getbit_i_out_of_range : (Line.getbit 0 32).wellFormed = false := by decide
theorem test_req_out_of_range :
    (Line.req 0x10000000000).wellFormed = false ∧ (Line.req 0xFFFFFFFFFF).wellFormed = true := by decide

/-! ### Decoding: words written out bit by bit from the table's "encoding" column -/

theorem test_decode_ibytes :
    decode 0b00_000000_00000000_00010010_00110100_01010110#40 = .ok (.ibytes 0x12#8 0x34#8 0x56#8) := by decide
theorem test_decode_irgba :
    decode 0b01_000000_00010010_00110100_01010110_10101011#40 = .ok (.irgba 0x123456AB#32) := by decide
theorem test_decode_deint :
    decode 0b10_000000_00000000_00010010_00110100_01010110#40 = .ok (.deint 0x123456#24) := by decide
theorem test_decode_getbit :
    decode 0b11_001010_11111111_10111000_01001100_00000000#40 = .ok (.getbit 0xFFB84C00#32 10#5) := by decide
/-- One must-be-zero bit set in each operation, at the ends of its range (30_encoding.md R34). -/
theorem test_decode_must_be_zero :
    decode 0b00_100000_00000000_11111111_10111000_01001100#40 = .error .contractViolation ∧
    decode 0b00_000000_00000001_11111111_10111000_01001100#40 = .error .contractViolation ∧
    decode 0b01_000001_11111111_10111000_01001100_00000000#40 = .error .contractViolation ∧
    decode 0b10_000000_10000000_00000000_00000000_00000000#40 = .error .contractViolation ∧
    decode 0b11_111111_00000000_00000000_00000000_00000001#40 = .error .contractViolation := by decide
/-- The worked encodings of 30_encoding.md section 6. -/
theorem test_encode_worked :
    encode (.ibytes 255#8 184#8 76#8) = 0x0000FFB84C#40 ∧ encode (.irgba 0xFFB84C00#32) = 0x40FFB84C00#40 ∧
    encode (.deint 0xD76F64#24) = 0x8000D76F64#40 ∧ encode (.getbit 0xD76F64#32 23#5) = 0xD700D76F64#40 := by decide
theorem test_decodeTableWord :
    decodeTableWord 40 0x0000FFB84C = some (.ibytes 255#8 184#8 76#8) ∧
    decodeTableWord 40 0xE000000000 = none ∧ decodeTableWord 48 0 = none := by decide

/-! ### One step, with the vectors of 95_test_vectors.md section 2 -/

theorem test_ibytes_mixed : answer (oneRequest 0x0000123456#40) = some ⟨false, 0x000570E8#32⟩ := by decide
theorem test_ibytes_alternating : answer (oneRequest 0x0000AA55F0#40) = some ⟨false, 0x00AEB8A2#32⟩ := by decide
theorem test_irgba_ignores_a : answer (oneRequest 0x40FFB84CFF#40) = some ⟨false, 0x00D76F64#32⟩ := by decide
theorem test_irgba_mixed : answer (oneRequest 0x40123456AB#40) = some ⟨false, 0x000570E8#32⟩ := by decide
theorem test_deint_mixed : answer (oneRequest 0x8000123456#40) = some ⟨false, 0x611B14FF#32⟩ := by decide
theorem test_deint_top_bit_is_r7 : answer (oneRequest 0x8000800000#40) = some ⟨false, 0x800000FF#32⟩ := by decide
theorem test_getbit_top_bit : answer (oneRequest 0xDF80000000#40) = some ⟨false, 1#32⟩ := by decide
theorem test_getbit_clear_bit : answer (oneRequest 0xCCFFB84C00#40) = some ⟨false, 0#32⟩ := by decide
theorem test_violations_answer_fault :
    answer (oneRequest 0x2000FFB84C#40) = some ⟨true, 0#32⟩ ∧ answer (oneRequest 0x41FFB84C00#40) = some ⟨true, 0#32⟩ ∧
    answer (oneRequest 0x80FF000000#40) = some ⟨true, 0#32⟩ ∧ answer (oneRequest 0xE000000000#40) = some ⟨true, 0#32⟩ := by
  decide
/-- The first instruction after reset. -/
theorem test_withFetchWord_runs :
    answer (State.reset.withFetchWord 40 0x0000FFB84C) = some ⟨false, 0x00D76F64#32⟩ := by decide
theorem test_response_word : Response.toBits ⟨true, 0#32⟩ = 0x100000000#33 := by decide

/-! ### The assembler (30_encoding.md R38, section 6) -/

theorem test_assemble_worked :
    assembleText ["ibytes 255, 184, 76".toList, "IRGBA 0xFFB84C00 ; packed".toList, "".toList,
      "deint 0b110101110110111101100100".toList] =
      .ok [0x0000FFB84C#40, 0x40FFB84C00#40, 0x8000D76F64#40] := by decide
theorem test_assemble_refuses :
    assembleText ["getbit 0, 32".toList] = .error .outOfRange ∧
    assembleText ["deint -1".toList] = .error .badNumber ∧
    assembleText ["ibytes 1, 2".toList] = .error .noSuchSyntax := by decide

/-! ### Witnesses: concrete inputs that meet the hypotheses of the obligations -/

theorem witness_StepRunsDecodedInstruction :
    (oneRequest 0x8000D76F64#40).pending = 0x8000D76F64#40 :: [] ∧
      decode 0x8000D76F64#40 = .ok (.deint 0xD76F64#24) := by decide
theorem witness_StepStopsWhenRunHasEnded : State.reset.pending = [] := rfl
theorem witness_FetchWordIsTheNextRequest : 40 < 41 := by decide
theorem witness_FirstRequestIsEvaluatedLikeAnyOther :
    ({ pending := [0#40, 1#40], presented := [0xFFFFFFFFFF#40], responses := [⟨true, 0#32⟩], faulted := true } :
      State).pending = 0#40 :: [1#40] := rfl
/-- `k` at both ends of its range, for the statements over the bits of a group. -/
theorem witness_group_bounds :
    (0 < 8 ∧ (interleaveBytes 1 0 1).getLsbD (3 * 0 + 2) = true) ∧
    (7 < 8 ∧ (interleaveBytes 128 0 0).getLsbD (3 * 7 + 2) = true) := by decide
theorem witness_ExecOnlyRecordsOneResult :
    exec (.getbit 1#32 0#5) State.reset =
      .next { pending := [], presented := [], responses := [⟨false, 1#32⟩], faulted := false } := rfl
theorem witness_EveryRequestIsAnswered : (oneRequest 0#40).pending ≠ [] := by decide
theorem witness_GetbitRequestReadsBitOrFaults :
    ((oneRequest 0xE000000000#40).pending = 0xE000000000#40 :: [] ∧
      (0xE000000000#40).extractLsb' 38 2 = 0b11#2 ∧ (0xE000000000#40).getLsbD 37 = true) ∧
    ((oneRequest 0xDFFFFFFFFF#40).pending = 0xDFFFFFFFFF#40 :: [] ∧
      (0xDFFFFFFFFF#40).extractLsb' 38 2 = 0b11#2 ∧ (0xDFFFFFFFFF#40).getLsbD 37 = false) ∧
    ((255#32).toNat ≤ 255 ∧ 8 ≤ (8#5).toNat) ∧
    (oneRequest 0xCAFFB84C00#40).pending = 0xCAFFB84C00#40 :: [] := by decide
theorem witness_IbytesRequestInterleavesOrFaults :
    ((oneRequest 0x0001000000#40).pending = 0x0001000000#40 :: [] ∧
      (0x0001000000#40).extractLsb' 38 2 = 0b00#2 ∧ (0x0001000000#40).extractLsb' 24 14 ≠ 0#14) ∧
    ((oneRequest 0x0000FFFFFF#40).pending = 0x0000FFFFFF#40 :: [] ∧
      (0x0000FFFFFF#40).extractLsb' 38 2 = 0b00#2 ∧ (0x0000FFFFFF#40).extractLsb' 24 14 = 0#14) ∧
    (oneRequest 0x0000FFB84C#40).pending = 0x0000FFB84C#40 :: [] := by decide
theorem witness_IrgbaRequestInterleavesOrFaults :
    ((oneRequest 0x6000000000#40).pending = 0x6000000000#40 :: [] ∧
      (0x6000000000#40).extractLsb' 38 2 = 0b01#2 ∧ (0x6000000000#40).extractLsb' 32 6 ≠ 0#6) ∧
    ((oneRequest 0x40FFFFFFFF#40).pending = 0x40FFFFFFFF#40 :: [] ∧
      (0x40FFFFFFFF#40).extractLsb' 38 2 = 0b01#2 ∧ (0x40FFFFFFFF#40).extractLsb' 32 6 = 0#6) ∧
    (0xFFB84C00#32).extractLsb' 8 24 = (0xFFB84CFF#32).extractLsb' 8 24 ∧
    (oneRequest 0x40FFB84C00#40).pending = 0x40FFB84C00#40 :: [] := by decide
theorem witness_DeintRequestDeinterleavesOrFaults :
    ((oneRequest 0xA000000000#40).pending = 0xA000000000#40 :: [] ∧
      (0xA000000000#40).extractLsb' 38 2 = 0b10#2 ∧ (0xA000000000#40).extractLsb' 24 14 ≠ 0#14) ∧
    ((oneRequest 0x8000FFFFFF#40).pending = 0x8000FFFFFF#40 :: [] ∧
      (0x8000FFFFFF#40).extractLsb' 38 2 = 0b10#2 ∧ (0x8000FFFFFF#40).extractLsb' 24 14 = 0#14) ∧
    (oneRequest 0x8000D76F64#40).pending = 0x8000D76F64#40 :: [] := by decide
theorem witness_HostRoundTripGivesFirstResponseBack : State.reset.pending = [] := rfl
theorem witness_EncodeOfDecodeIsTheWord : decode 0xDFFFFFFFFF#40 = .ok (.getbit 0xFFFFFFFF#32 31#5) := by decide
theorem witness_StepAnswersEvalAsTheTableDecodes :
    (⟨"DEINT", 0xFFFF000000#40, 0x8000000000#40⟩ ∈ opcodeRows ∧
      (⟨"DEINT", 0xFFFF000000#40, 0x8000000000#40⟩ : OpcodeRow).admits 0x8000FFFFFF#40 = true) ∧
    (∀ row ∈ opcodeRows, row.admits 0x8001000000#40 = false) := by decide
/-- A request of each operation, and one that violates, for the clauses of the statement. -/
theorem witness_ResponseWordFormat :
    decode 0x0000FFFFFF#40 = .ok (.ibytes 255#8 255#8 255#8) ∧ decode 0x40FFFFFFFF#40 = .ok (.irgba 0xFFFFFFFF#32) ∧
    decode 0x8000FFFFFF#40 = .ok (.deint 0xFFFFFF#24) ∧ decode 0xDFFFFFFFFF#40 = .ok (.getbit 0xFFFFFFFF#32 31#5) ∧
    (eval 0xE000000000#40).err = true := by decide
/-- Each operand at the end of its range, and just outside it. -/
theorem witness_AssembledLineIsTheInstructionsWord :
    (Line.ibytes 255 255 255).assemble = some 0x0000FFFFFF#40 ∧ (Line.ibytes 256 0 0).assemble = none ∧
    (Line.ibytes 0 256 0).assemble = none ∧ (Line.ibytes 0 0 256).assemble = none ∧
    (Line.irgba 0xFFFFFFFF).assemble = some 0x40FFFFFFFF#40 ∧ (Line.irgba 0x100000000).assemble = none ∧
    (Line.deint 0xFFFFFF).assemble = some 0x8000FFFFFF#40 ∧ (Line.deint 0x1000000).assemble = none ∧
    (Line.getbit 0xFFFFFFFF 31).assemble = some 0xDFFFFFFFFF#40 ∧ (Line.getbit 0x100000000 0).assemble = none ∧
    (Line.getbit 0 32).assemble = none := by decide
theorem witness_ReqDirectiveAloneWritesMustBeZeroBits :
    0xFFFFFFFFFF < 0x10000000000 ∧ (Line.req 0x3FFF000000).assemble = some 0x3FFF000000#40 ∧
    0x3FFF000000#40 &&& mustBeZeroMask (Request.op 0x3FFF000000#40) ≠ 0#40 ∧
    (oneRequest 0x3FFF000000#40).pending = 0x3FFF000000#40 :: [] := by decide
theorem witness_AssemblerIgnoresCommentsAndMnemonicCase :
    ("DeInt".toList).map Char.toLower = ("dEINT".toList).map Char.toLower ∧
      lineOf "DeInt".toList [1] = some (.deint 1) := by decide
/-- A violating request followed by another, as the statements on ContractViolation and on what follows it ask. -/
theorem witness_violation_then_request :
    ({ pending := [0xFFFFFFFFFF#40, 0x0000FFB84C#40], presented := [], responses := [], faulted := false } :
      State).pending = 0xFFFFFFFFFF#40 :: 0x0000FFB84C#40 :: [] ∧
    0xFFFFFFFFFF#40 &&& mustBeZeroMask (Request.op 0xFFFFFFFFFF#40) ≠ 0#40 := by decide
theorem witness_ViolationsAreNotToldApart :
    (oneRequest 0x0001FFB84C#40).pending = 0x0001FFB84C#40 :: [] ∧
    (oneRequest 0x3FFF000000#40).pending = 0x3FFF000000#40 :: [] ∧
    0x0001FFB84C#40 &&& mustBeZeroMask (Request.op 0x0001FFB84C#40) ≠ 0#40 ∧
    0x3FFF000000#40 &&& mustBeZeroMask (Request.op 0x3FFF000000#40) ≠ 0#40 := by decide
/-- A state with a fault recorded meets the invariant, and its step has a next state. -/
theorem witness_RunInvariantKeptByEveryStep :
    ({ pending := [0#40], presented := [0xE000000000#40], responses := [⟨true, 0#32⟩], faulted := true } :
      State).RunInv ∧
    step { pending := [0#40], presented := [0xE000000000#40], responses := [⟨true, 0#32⟩], faulted := true } =
      .next { pending := [], presented := [0xE000000000#40, 0#40], responses := [⟨true, 0#32⟩, ⟨false, 0#32⟩],
              faulted := true } :=
  ⟨⟨rfl, rfl⟩, rfl⟩
theorem witness_StepConsumesOneRequestInOrder :
    step (oneRequest 0xE000000000#40) =
      .next { pending := [], presented := [0xE000000000#40], responses := [⟨true, 0#32⟩], faulted := true } := rfl
theorem witness_RunRecordsEveryResponseAndKeepsTheMark :
    Sys2Proof.core.run 1 { oneRequest 0#40 with faulted := true } =
      .next { pending := [], presented := [0#40], responses := [⟨false, 0#32⟩], faulted := true } := rfl
theorem witness_RepeatedRequestGetsOneResponse :
    ({ pending := [0#40, 0#40], presented := [], responses := [], faulted := false } : State).pending =
      List.replicate 2 0#40 := rfl
theorem witness_ResponsesDoNotDependOnOrder :
    [0#40, 0xE000000000#40].Perm [0xE000000000#40, 0#40] ∧ State.reset.presented = [] ∧ State.reset.responses = [] := by
  decide
theorem witness_RunIsFaultFreeIffPreMasked :
    (oneRequest 0x0000FFFFFF#40).faulted = false ∧
      0x0000FFFFFF#40 &&& mustBeZeroMask (Request.op 0x0000FFFFFF#40) = 0#40 := by decide
theorem witness_InstancesAreIndependent :
    Instances.stepAt [oneRequest 0#40, State.reset] 0 =
      some [{ pending := [], presented := [0#40], responses := [⟨false, 0#32⟩], faulted := false }, State.reset] ∧
    1 ≠ 0 := by decide

end Sys2Proof.Tests
end

section
/-! SUPPORT. The loops of IBYTES, IRGBA and DEINT as bit permutations: what each gives from any start value, in
the terms of the layouts of 10_state.md R20 and R21. -/

namespace Sys2Proof.Machine

/-! ### Appending a list of bits -/

/-- Appended bits fill a word from the bottom, the last one at position 0, whatever the word held before. -/
theorem getLsbD_foldl_appendBit {n k : Nat} {bits : List (BitVec 1)} {bit : BitVec 1} (t : BitVec n) (hk : k < n)
    (h : bits.reverse[k]? = some bit) : (bits.foldl appendBit t).getLsbD k = bit.getLsbD 0 := by
  induction bits using List.reverseRecOn generalizing k with
  | nil => simp at h
  | append_singleton bits last ih =>
    rw [List.reverse_append, List.reverse_singleton, List.singleton_append] at h
    rw [List.foldl_append, List.foldl_cons, List.foldl_nil, getLsbD_appendBit]
    cases k with
    | zero =>
      have hlast : last = bit := by simpa using h
      simp [hk, hlast]
    | succ k => simpa [hk] using ih (by omega) (by simpa using h)

/-- The one bit `getBit` gives is the bit it reads. -/
theorem getLsbD_zero_getBit {n : Nat} (x : BitVec n) (i : Nat) : (getBit x i).getLsbD 0 = x.getLsbD i := by
  rw [getLsbD_getBit, decide_eq_true rfl, Bool.true_and]

/-- Reading bit `j` of a field of a word is reading bit `start + j` of the word. -/
theorem getBit_extractLsb' {n len j : Nat} (x : BitVec n) (start : Nat) (hj : j < len) :
    getBit (x.extractLsb' start len) j = getBit x (start + j) := by
  apply BitVec.eq_of_getLsbD_eq
  intro k _
  simp [getLsbD_getBit, hj]

/-! ### The interleaved triple (10_state.md R20) -/

/-- R20's layout: `T[3k+2] = R[k]`, `T[3k+1] = G[k]`, `T[3k] = B[k]`. -/
def TripleLayout (t : Triple) (r g b : Channel) : Prop :=
  ∀ k < 8, t.getLsbD (3 * k + 2) = r.getLsbD k ∧ t.getLsbD (3 * k + 1) = g.getLsbD k ∧
    t.getLsbD (3 * k) = b.getLsbD k

/-- The layout leaves no bit of the triple open. -/
theorem TripleLayout.triple_unique {t u : Triple} {r g b : Channel} (ht : TripleLayout t r g b)
    (hu : TripleLayout u r g b) : t = u := by
  apply BitVec.eq_of_getLsbD_eq
  intro n hn
  obtain ⟨tr, tg, tb⟩ := ht (n / 3) (by omega)
  obtain ⟨ur, ug, ub⟩ := hu (n / 3) (by omega)
  obtain hn | hn | hn : n = 3 * (n / 3) + 2 ∨ n = 3 * (n / 3) + 1 ∨ n = 3 * (n / 3) := by omega
  · rw [hn, tr, ur]
  · rw [hn, tg, ug]
  · rw [hn, tb, ub]

/-- The layout leaves no bit of the channels open. -/
theorem TripleLayout.channels_unique {t : Triple} {r g b r' g' b' : Channel} (h : TripleLayout t r g b)
    (h' : TripleLayout t r' g' b') : r = r' ∧ g = g' ∧ b = b' :=
  ⟨BitVec.eq_of_getLsbD_eq fun k hk => (h k hk).1.symm.trans (h' k hk).1,
    BitVec.eq_of_getLsbD_eq fun k hk => (h k hk).2.1.symm.trans (h' k hk).2.1,
    BitVec.eq_of_getLsbD_eq fun k hk => (h k hk).2.2.symm.trans (h' k hk).2.2⟩

theorem getLsbD_channelOfTriple (c k : Nat) (t : Triple) :
    (channelOfTriple c t).getLsbD k = (decide (k < 8) && t.getLsbD (3 * k + (2 - c))) :=
  getLsbD_ofBits 8 _ k

/-- Every triple has the layout, of the channels read from it. -/
theorem tripleLayout_channelOfTriple (t : Triple) :
    TripleLayout t (channelOfTriple 0 t) (channelOfTriple 1 t) (channelOfTriple 2 t) := by
  intro k hk
  simp only [getLsbD_channelOfTriple, hk, decide_true, Bool.true_and, Nat.sub_self, Nat.add_zero, and_self]

/-! ### The loops of IBYTES and IRGBA (41_interleave.md R41, R42) -/

/-- The bits R41's loop appends, in their order: `R[7] G[7] B[7] … R[0] G[0] B[0]`. -/
def interleaveStream (r g b : Channel) : List (BitVec 1) :=
  sevenDownToZero.flatMap fun i => [getBit r i, getBit g i, getBit b i]

theorem interleaveBytesFrom_eq_foldl (t : Triple) (r g b : Channel) :
    interleaveBytesFrom t r g b = (interleaveStream r g b).foldl appendBit t := rfl

/-- Group `k` of the stream, counted from its end. -/
theorem interleaveStream_group (r g b : Channel) {k : Nat} (hk : k < 8) :
    (interleaveStream r g b).reverse[3 * k + 2]? = some (getBit r k) ∧
      (interleaveStream r g b).reverse[3 * k + 1]? = some (getBit g k) ∧
      (interleaveStream r g b).reverse[3 * k]? = some (getBit b k) := by
  interval_cases k <;> exact ⟨rfl, rfl, rfl⟩

/-- R41's loop makes the layout from any start value: its 24 bits fill the accumulator. -/
theorem tripleLayout_interleaveBytesFrom (t : Triple) (r g b : Channel) :
    TripleLayout (interleaveBytesFrom t r g b) r g b := by
  intro k hk
  obtain ⟨hr, hg, hb⟩ := interleaveStream_group r g b hk
  rw [interleaveBytesFrom_eq_foldl, getLsbD_foldl_appendBit t (by omega) hr,
    getLsbD_foldl_appendBit t (by omega) hg, getLsbD_foldl_appendBit t (by omega) hb]
  exact ⟨getLsbD_zero_getBit r k, getLsbD_zero_getBit g k, getLsbD_zero_getBit b k⟩

theorem tripleLayout_interleaveBytes (r g b : Channel) : TripleLayout (interleaveBytes r g b) r g b :=
  tripleLayout_interleaveBytesFrom _ r g b

/-- A triple is the interleaving of the channels read from it. -/
theorem interleaveBytes_channelOfTriple (t : Triple) :
    interleaveBytes (channelOfTriple 0 t) (channelOfTriple 1 t) (channelOfTriple 2 t) = t :=
  (tripleLayout_interleaveBytes _ _ _).triple_unique (tripleLayout_channelOfTriple t)

/-- Iteration `i` of R42's loop reads the bits that iteration `7 - i` of R41's loop reads (41_interleave.md R44). -/
theorem getBit_packed (p : Packed) {i : Nat} (hi : i < 8) :
    getBit p (31 - i) = getBit (channelR p) (7 - i) ∧ getBit p (23 - i) = getBit (channelG p) (7 - i) ∧
      getBit p (15 - i) = getBit (channelB p) (7 - i) := by
  have hj : 7 - i < 8 := by omega
  rw [channelR, channelG, channelB, getBit_extractLsb' p 24 hj, getBit_extractLsb' p 16 hj, getBit_extractLsb' p 8 hj,
    show 24 + (7 - i) = 31 - i by omega, show 16 + (7 - i) = 23 - i by omega, show 8 + (7 - i) = 15 - i by omega]
  exact ⟨rfl, rfl, rfl⟩

/-- R42's loop on a packed word is R41's loop on its channels, from any start value. -/
theorem interleaveRgbaFrom_eq_interleaveBytesFrom (t : Triple) (p : Packed) :
    interleaveRgbaFrom t p = interleaveBytesFrom t (channelR p) (channelG p) (channelB p) := by
  have hindices : sevenDownToZero = zeroToSeven.map (7 - ·) := rfl
  rw [interleaveRgbaFrom, interleaveBytesFrom, hindices, List.foldl_map]
  refine List.foldl_ext _ _ t fun t i hi => ?_
  have hi8 : i < 8 := (by decide : ∀ i ∈ zeroToSeven, i < 8) i hi
  obtain ⟨hr, hg, hb⟩ := getBit_packed p hi8
  rw [hr, hg, hb]

theorem interleaveRgba_eq_interleaveBytes (p : Packed) :
    interleaveRgba p = interleaveBytes (channelR p) (channelG p) (channelB p) :=
  interleaveRgbaFrom_eq_interleaveBytesFrom _ p

/-! ### The loop of DEINT (42_deinterleave.md R46) -/

/-- R46's accumulator for channel `c` ends as that channel, from any start value: its 8 bits fill the accumulator. -/
theorem gatherFrom_eq_channelOfTriple (acc : Channel) (c : Nat) (t : Triple) :
    gatherFrom acc (2 - c) t = channelOfTriple c t := by
  apply BitVec.eq_of_getLsbD_eq
  intro k hk
  have hbit : (sevenDownToZero.map fun j => getBit t (3 * j + (2 - c))).reverse[k]? =
      some (getBit t (3 * k + (2 - c))) := by
    interval_cases k <;> rfl
  rw [gatherFrom, ← List.foldl_map (f := fun j => getBit t (3 * j + (2 - c))) (g := appendBit),
    getLsbD_foldl_appendBit acc hk hbit, getLsbD_zero_getBit, getLsbD_channelOfTriple, decide_eq_true hk, Bool.true_and]

theorem deInterleavePcmFrom_eq_packRgba (r g b : Channel) (t : Triple) :
    deInterleavePcmFrom r g b t =
      packRgba (channelOfTriple 0 t) (channelOfTriple 1 t) (channelOfTriple 2 t) 0xFF#8 := by
  rw [← gatherFrom_eq_channelOfTriple r 0, ← gatherFrom_eq_channelOfTriple g 1, ← gatherFrom_eq_channelOfTriple b 2]
  rfl

theorem deInterleavePcm_eq_packRgba (t : Triple) :
    deInterleavePcm t = packRgba (channelOfTriple 0 t) (channelOfTriple 1 t) (channelOfTriple 2 t) 0xFF#8 :=
  deInterleavePcmFrom_eq_packRgba _ _ _ t

/-! ### The packed RGBA word (10_state.md R21) -/

/-- A packed word is the concatenation of its four bytes. -/
theorem append_channels_eq (p : Packed) : channelR p ++ channelG p ++ channelB p ++ channelA p = p := by
  rw [channelR, channelG, channelB, channelA,
    BitVec.extractLsb'_append_extractLsb'_eq_extractLsb' (by rfl : 24 = 16 + 8),
    BitVec.extractLsb'_append_extractLsb'_eq_extractLsb' (by rfl : 16 = 8 + 8),
    BitVec.extractLsb'_append_extractLsb'_eq_extractLsb' (by rfl : 8 = 0 + 8), BitVec.extractLsb'_eq_self]

/-- The or of the shifted channels is their concatenation. -/
theorem packRgba_eq_append (r g b a : Channel) : packRgba r g b a = r ++ g ++ b ++ a := by
  rw [packRgba, ← BitVec.setWidth_eq (r ++ g ++ b ++ a), BitVec.setWidth_append_append_append_eq_shiftLeft_setWidth_or]

end Sys2Proof.Machine
end

section
/-! The layouts of 10_state.md section 4. -/

open Sys2Proof Sys2Proof.Machine

/-- Settles O19: the layout leaves no bit of the channels open, and every triple has the layout of the channels read
from it. -/
theorem tripleLayoutIsABijection : Obligations.TripleLayoutIsABijection := by
  refine ⟨tripleLayout_interleaveBytes, ?injective, ?surjective⟩
  case injective =>
    rintro ⟨r, g, b⟩ ⟨r', g', b'⟩ (h : interleaveBytes r g b = interleaveBytes r' g' b')
    have h' : TripleLayout (interleaveBytes r g b) r' g' b' := h ▸ tripleLayout_interleaveBytes r' g' b'
    obtain ⟨rfl, rfl, rfl⟩ := (tripleLayout_interleaveBytes r g b).channels_unique h'
    rfl
  case surjective =>
    exact fun t => ⟨⟨channelOfTriple 0 t, channelOfTriple 1 t, channelOfTriple 2 t⟩, interleaveBytes_channelOfTriple t⟩

/-- Settles O20: the four bytes make up the word, IRGBA's loop reads them as IBYTES reads its channels, and DEINT packs
the channels its operand is the interleaving of. -/
theorem packedWordLayout : Obligations.PackedWordLayout := by
  refine ⟨fun p => ⟨rfl, rfl, rfl, rfl, (append_channels_eq p).symm, ?_⟩, interleaveRgba_eq_interleaveBytes,
    fun t => ?_⟩
  · rw [packRgba_eq_append, append_channels_eq]
  · exact ⟨_, _, _, interleaveBytes_channelOfTriple t, deInterleavePcm_eq_packRgba t⟩
end

section
/-! SUPPORT. The must-be-zero bits of a request word (30_encoding.md R34): the check the decoder makes on a field, the
mask of the rule's table and the rows of the opcode table say the same of a word. -/

namespace Sys2Proof

/-! ### Masks and fields -/

/-- Masking a word to a field leaves the value `v` there exactly when the field reads `v`. -/
theorem and_fieldMask_eq_iff {n start len : Nat} (w : BitVec n) (v : BitVec len) (h : start + len ≤ n) :
    w &&& ((BitVec.allOnes len).setWidth n <<< start) = v.setWidth n <<< start ↔ w.extractLsb' start len = v := by
  constructor
  · intro hw
    apply BitVec.eq_of_getLsbD_eq
    intro k hk
    have hbit := congrArg (·.getLsbD (start + k)) hw
    have hkn : start + k < n := by omega
    have hkn' : k < n := by omega
    simpa [BitVec.getLsbD_extractLsb', hk, hkn, hkn'] using hbit
  · rintro rfl
    apply BitVec.eq_of_getLsbD_eq
    intro k hk
    by_cases hlow : k < start
    · simp [hlow]
    · have hsub : start + (k - start) = k := by omega
      simp [hk, hlow, hsub, BitVec.getLsbD_extractLsb', Bool.and_comm]

/-- Masking with two masks at once, where the pattern lies in the first and the second is disjoint from it. -/
theorem and_or_eq_iff {n : Nat} (w : BitVec n) {a b p : BitVec n} (hab : a &&& b = 0#n) (hp : p &&& a = p) :
    w &&& (a ||| b) = p ↔ w &&& a = p ∧ w &&& b = 0#n := by
  constructor
  · intro h
    have ha : (a ||| b) &&& a = a := by ext k hk; cases hak : a[k] <;> simp [hak]
    have hb : (a ||| b) &&& b = b := by ext k hk; cases hbk : b[k] <;> simp [hbk]
    constructor
    · rw [← hp, ← h, BitVec.and_assoc, ha]
    · calc w &&& b = p &&& b := by rw [← h, BitVec.and_assoc, hb]
        _ = 0#n := by rw [← hp, BitVec.and_assoc, hab, BitVec.and_zero]
  · rintro ⟨ha, hb⟩
    rw [BitVec.and_or_distrib_left, ha, hb, BitVec.or_zero]

theorem Request.and_mask_37_24_eq_zero_iff (w : Request) :
    w &&& 0x3FFF000000#40 = 0#40 ↔ w.extractLsb' 24 14 = 0#14 :=
  and_fieldMask_eq_iff (start := 24) w 0#14 (by decide)

theorem Request.and_mask_37_32_eq_zero_iff (w : Request) :
    w &&& 0x3F00000000#40 = 0#40 ↔ Request.ext w = 0#6 :=
  and_fieldMask_eq_iff (start := 32) w 0#6 (by decide)

theorem Request.and_mask_37_eq_zero_iff (w : Request) :
    w &&& 0x2000000000#40 = 0#40 ↔ w.extractLsb' 37 1 = 0#1 :=
  and_fieldMask_eq_iff (start := 37) w 0#1 (by decide)

theorem Request.and_opMask_eq_iff (w : Request) (c : BitVec 2) :
    w &&& 0xC000000000#40 = c.setWidth 40 <<< 38 ↔ Request.op w = c :=
  and_fieldMask_eq_iff (start := 38) w c (by decide)

/-! ### The opcode table (30_encoding.md R35) -/

theorem op_cases (c : BitVec 2) : c = 0b00#2 ∨ c = 0b01#2 ∨ c = 0b10#2 ∨ c = 0b11#2 := by
  revert c
  decide

/-- The row of the opcode table that stands at an op code. -/
def rowOfOp (c : BitVec 2) : OpcodeRow := opcodeRows[c.toNat]'(c.isLt)

theorem opcodeRows_eq_map_rowOfOp : opcodeRows = [0b00#2, 0b01#2, 0b10#2, 0b11#2].map rowOfOp := rfl

/-- The mask of a row is the op field and the must-be-zero bits of its operation, which do not meet; its pattern is the
op code, with zeros below. -/
theorem rowOfOp_eq (c : BitVec 2) :
    (rowOfOp c).mask = 0xC000000000#40 ||| mustBeZeroMask c ∧ (rowOfOp c).pattern = c.setWidth 40 <<< 38 ∧
      0xC000000000#40 &&& mustBeZeroMask c = 0#40 ∧ (rowOfOp c).pattern &&& 0xC000000000#40 = (rowOfOp c).pattern := by
  revert c
  decide

/-- A row admits the words of its op code whose must-be-zero bits are all zero. -/
theorem rowOfOp_admits_iff (c : BitVec 2) (w : Request) :
    (rowOfOp c).admits w = true ↔ Request.op w = c ∧ w &&& mustBeZeroMask c = 0#40 := by
  obtain ⟨hmask, hpattern, hdisjoint, hwithin⟩ := rowOfOp_eq c
  rw [OpcodeRow.admits, beq_iff_eq, hmask, and_or_eq_iff w hdisjoint hwithin, hpattern, Request.and_opMask_eq_iff]

/-- The row of a word's own op code admits it unless a must-be-zero bit is set, and no other row does. -/
theorem rowsAdmitting_eq (w : Request) :
    rowsAdmitting w = if w &&& mustBeZeroMask (Request.op w) = 0#40 then [rowOfOp (Request.op w)] else [] := by
  have hadmits (c : BitVec 2) :
      (rowOfOp c).admits w = decide (Request.op w = c ∧ w &&& mustBeZeroMask (Request.op w) = 0#40) := by
    rw [Bool.eq_iff_iff, rowOfOp_admits_iff, decide_eq_true_iff]
    exact and_congr_right fun h => h ▸ Iff.rfl
  rw [rowsAdmitting, opcodeRows_eq_map_rowOfOp]
  split
  · next hzero =>
    simp only [List.filter_map, Function.comp_def, hadmits, hzero, and_true]
    rcases op_cases (Request.op w) with h | h | h | h <;> rw [h] <;> rfl
  · next hset => simp [hadmits, hset]

/-- A row of the table that admits a word is the row of its op code, and no must-be-zero bit of the word is set. -/
theorem eq_rowOfOp_of_admits {row : OpcodeRow} {w : Request} (hrow : row ∈ opcodeRows) (h : row.admits w = true) :
    row = rowOfOp (Request.op w) ∧ w &&& mustBeZeroMask (Request.op w) = 0#40 := by
  have hmem : row ∈ rowsAdmitting w := List.mem_filter.mpr ⟨hrow, h⟩
  rw [rowsAdmitting_eq, List.mem_ite_nil_right, List.mem_singleton] at hmem
  exact hmem.symm

/-! ### The decoder (30_encoding.md R35) -/

/-- The instruction of a word's op code, its operands at the bits R33 gives them, whatever the must-be-zero bits. -/
def Request.instr (w : Request) : Instr :=
  if Request.op w = 0b00#2 then .ibytes (w.extractLsb' 16 8) (w.extractLsb' 8 8) (w.extractLsb' 0 8)
  else if Request.op w = 0b01#2 then .irgba (Request.data w)
  else if Request.op w = 0b10#2 then .deint (w.extractLsb' 0 24)
  else .getbit (Request.data w) (w.extractLsb' 32 5)

/-- The decoder's four field checks are one check of the word against R34's mask. -/
theorem decode_eq (w : Request) :
    decode w = if w &&& mustBeZeroMask (Request.op w) = 0#40 then .ok w.instr else .error .contractViolation := by
  rcases op_cases (Request.op w) with h | h | h | h
  · simp [decode, Request.instr, mustBeZeroMask, h, Request.and_mask_37_24_eq_zero_iff]
  · simp [decode, Request.instr, mustBeZeroMask, h, Request.and_mask_37_32_eq_zero_iff]
  · simp [decode, Request.instr, mustBeZeroMask, h, Request.and_mask_37_24_eq_zero_iff]
  · simp [decode, Request.instr, mustBeZeroMask, h, Request.and_mask_37_eq_zero_iff]

theorem decode_eq_ok_iff (w : Request) (i : Instr) :
    decode w = .ok i ↔ w &&& mustBeZeroMask (Request.op w) = 0#40 ∧ w.instr = i := by
  rw [decode_eq]
  split <;> simp [*]

theorem decode_eq_error_iff (w : Request) :
    decode w = .error .contractViolation ↔ w &&& mustBeZeroMask (Request.op w) ≠ 0#40 := by
  rw [decode_eq]
  split <;> simp [*]

/-- The word of an instruction has no must-be-zero bit set: a row of the table admits it. -/
theorem encode_and_mustBeZeroMask (i : Instr) : encode i &&& mustBeZeroMask (Request.op (encode i)) = 0#40 := by
  obtain ⟨row, hrow, -, hadmits⟩ : Laws.RowAdmits.Statement i := by
    cases i with
    | ibytes r g b => exact Laws.RowAdmits.ibytes r g b
    | irgba p => exact Laws.RowAdmits.irgba p
    | deint t => exact Laws.RowAdmits.deint t
    | getbit x n => exact Laws.RowAdmits.getbit x n
  exact (eq_rowOfOp_of_admits hrow hadmits).2

theorem Request.mnemonic_instr (w : Request) : w.instr.mnemonic = (rowOfOp (Request.op w)).mnemonic := by
  rcases op_cases (Request.op w) with h | h | h | h <;> simp only [Request.instr, h] <;> rfl

end Sys2Proof
end

section
/-! SUPPORT. The step and `eval` through the decoder (30_encoding.md R35). -/

namespace Sys2Proof.Machine

theorem eval_eq (w : Request) :
    eval w = if w &&& mustBeZeroMask (Request.op w) = 0#40 then ⟨false, resultOf w.instr⟩ else ⟨true, 0#32⟩ := by
  have hdata (start len : Nat) (h : start + len ≤ 32) :
      (Request.data w).extractLsb' start len = w.extractLsb' start len :=
    BitVec.extractLsb'_extractLsb'_of_le h
  rcases op_cases (Request.op w) with h | h | h | h
  · simp [eval, Request.instr, mustBeZeroMask, h, Request.and_mask_37_24_eq_zero_iff, resultOf, resultResponse,
      violationResponse, hdata]
  · simp [eval, Request.instr, mustBeZeroMask, h, Request.and_mask_37_32_eq_zero_iff, Request.ext, resultOf,
      resultResponse, violationResponse]
  · simp [eval, Request.instr, mustBeZeroMask, h, Request.and_mask_37_24_eq_zero_iff, resultOf, resultResponse,
      violationResponse, hdata]
  · simp [eval, Request.instr, mustBeZeroMask, h, Request.and_mask_37_eq_zero_iff, resultOf, resultResponse,
      violationResponse]

theorem eval_of_decode_ok {w : Request} {i : Instr} (h : decode w = .ok i) : eval w = ⟨false, resultOf i⟩ := by
  obtain ⟨hzero, rfl⟩ := (decode_eq_ok_iff w i).mp h
  rw [eval_eq, if_pos hzero]

theorem eval_of_decode_error {w : Request} (h : decode w = .error .contractViolation) : eval w = ⟨true, 0#32⟩ := by
  rw [eval_eq, if_neg ((decode_eq_error_iff w).mp h)]

/-- A step with a request left answers `eval` of it. -/
theorem step_eq_afterExchange_eval {s : State} {w : Request} {rest : List Request} (h : s.pending = w :: rest) :
    step s = .next (s.afterExchange w rest (eval w)) := by
  obtain ⟨hnil, -⟩ | ⟨w', rest', hcons, hstep⟩ := step_cases s
  · simp [hnil] at h
  · obtain ⟨rfl, rfl⟩ : w' = w ∧ rest' = rest := by simpa [hcons] using h
    obtain ⟨i, hdecode, hstep⟩ | ⟨hdecode, hstep⟩ := hstep
    · rw [hstep, eval_of_decode_ok hdecode]
    · rw [hstep, eval_of_decode_error hdecode]

theorem eval_err_iff (w : Request) : (eval w).err = true ↔ decode w = .error .contractViolation := by
  rw [eval_eq, decode_eq_error_iff]
  split <;> simp [*]

/-! ### The response word (30_encoding.md R37) -/

theorem Response.getLsbD_toBits_err (r : Response) : r.toBits.getLsbD 32 = r.err := by
  rw [Response.toBits, BitVec.getLsbD_append]
  simp

theorem Response.extractLsb'_toBits_y (r : Response) : r.toBits.extractLsb' 0 32 = r.y :=
  BitVec.extractLsb'_append_eq_right

@[simp] theorem Response.ofBits_toBits (r : Response) : Response.ofBits r.toBits = r := by
  rw [Response.ofBits, r.getLsbD_toBits_err, r.extractLsb'_toBits_y]

@[simp] theorem Response.toBits_ofBits (b : BitVec 33) : (Response.ofBits b).toBits = b := by
  have hbit : BitVec.ofBool (b.getLsbD 32) = b.extractLsb' 32 1 := by
    apply BitVec.eq_of_getLsbD_eq
    intro k hk
    obtain rfl : k = 0 := by omega
    simp
  rw [Response.toBits, Response.ofBits, hbit, BitVec.extractLsb'_append_extractLsb']

/-- Zero extension leaves the bits above the value 0. -/
theorem extractLsb'_setWidth_eq_zero {n m start : Nat} (x : BitVec n) (len : Nat) (h : n ≤ start) :
    (x.setWidth m).extractLsb' start len = 0#len := by
  apply BitVec.eq_of_getLsbD_eq
  intro k _
  simp [BitVec.getLsbD_extractLsb', BitVec.getLsbD_of_ge x (start + k) (by omega)]

end Sys2Proof.Machine
end

section
/-! SUPPORT. The lines of the assembler that write an instruction (30_encoding.md R38). -/

namespace Sys2Proof

theorem Instr.wellFormed_toLine (i : Instr) : i.toLine.wellFormed = true := by
  cases i <;> simp only [Instr.toLine, Line.wellFormed, Bool.and_eq_true, decide_eq_true_eq] <;> omega

/-- The shifts and ors of R38's table are the concatenation of opcode_table.json. -/
theorem Instr.word_toLine (i : Instr) : i.toLine.word = (encode i).toNat := by
  cases i <;>
    simp only [Instr.toLine, Line.word, encode, BitVec.toNat_append, BitVec.toNat_ofNat, Nat.shiftLeft_or_distrib,
      ← Nat.shiftLeft_add] <;> rfl

theorem Instr.assemble_toLine (i : Instr) : i.toLine.assemble = some (encode i) := by
  rw [Line.assemble, if_pos i.wellFormed_toLine, i.word_toLine, BitVec.ofNat_toNat, BitVec.setWidth_eq]

/-- A line whose operands are in range is a `.req` or the line of an instruction: no line writes anything else. -/
theorem Line.req_or_toLine {l : Line} (h : l.wellFormed = true) :
    (∃ n, l = .req n) ∨ ∃ i : Instr, l = i.toLine := by
  cases l with
  | req n => exact .inl ⟨n, rfl⟩
  | ibytes r g b =>
    simp only [Line.wellFormed, Bool.and_eq_true, decide_eq_true_eq] at h
    exact .inr ⟨.ibytes (.ofNat 8 r) (.ofNat 8 g) (.ofNat 8 b), by
      simp only [Instr.toLine, BitVec.toNat_ofNat, Line.ibytes.injEq]; omega⟩
  | irgba p =>
    simp only [Line.wellFormed, decide_eq_true_eq] at h
    exact .inr ⟨.irgba (.ofNat 32 p), by simp only [Instr.toLine, BitVec.toNat_ofNat, Line.irgba.injEq]; omega⟩
  | deint t =>
    simp only [Line.wellFormed, decide_eq_true_eq] at h
    exact .inr ⟨.deint (.ofNat 24 t), by simp only [Instr.toLine, BitVec.toNat_ofNat, Line.deint.injEq]; omega⟩
  | getbit x n =>
    simp only [Line.wellFormed, Bool.and_eq_true, decide_eq_true_eq] at h
    exact .inr ⟨.getbit (.ofNat 32 x) (.ofNat 5 n), by
      simp only [Instr.toLine, BitVec.toNat_ofNat, Line.getbit.injEq]; omega⟩

/-- What assembling a line can give: the word of a `.req`, or the word of the instruction the line writes. -/
theorem Line.assemble_cases {l : Line} {w : Request} (h : l.assemble = some w) :
    (∃ n, l = .req n) ∨ ∃ i : Instr, l = i.toLine ∧ w = encode i := by
  have hwf : l.wellFormed = true := by
    rw [Line.assemble] at h
    exact (Option.ite_none_right_eq_some.mp h).1
  obtain hreq | ⟨i, rfl⟩ := Line.req_or_toLine hwf
  · exact .inl hreq
  · rw [i.assemble_toLine, Option.some.injEq] at h
    exact .inr ⟨i, rfl, h.symm⟩

end Sys2Proof
end

section
/-! The encoding of 30_encoding.md. -/

open Sys2Proof Sys2Proof.Machine

/-- Settles O30: the decoder's check is the mask's, and the row of the word's op code admits it exactly when the masked
bits are zero. -/
theorem mustBeZeroBitsDecideTheRow : Obligations.MustBeZeroBitsDecideTheRow := by
  intro w
  rw [decode_eq_error_iff, rowsAdmitting_eq]
  refine ⟨?masks, ?oneRow, ?noRow⟩
  case masks =>
    rw [show w.extractLsb' 38 2 = Request.op w from rfl]
    rcases op_cases (Request.op w) with h | h | h | h <;> simp [h, mustBeZeroMask]
  case oneRow => split <;> simp [*]
  case noRow => split <;> simp [*]

/-- Settles O31: a row that admits the word is the row of its op code, and admits it exactly when the word decodes. -/
theorem stepAnswersEvalAsTheTableDecodes : Obligations.StepAnswersEvalAsTheTableDecodes := by
  refine ⟨fun s w rest h => step_eq_afterExchange_eval h, ?admitted, ?notAdmitted⟩
  case admitted =>
    intro w row hrow hadmits
    obtain ⟨rfl, hzero⟩ := eq_rowOfOp_of_admits hrow hadmits
    have hdecode : decode w = .ok w.instr := (decode_eq_ok_iff w _).mpr ⟨hzero, rfl⟩
    exact ⟨w.instr, hdecode, w.mnemonic_instr, by rw [eval_of_decode_ok hdecode]⟩
  case notAdmitted =>
    intro w hrows
    have hnone : rowsAdmitting w = [] := List.filter_eq_nil_iff.mpr (by simpa using hrows)
    have hdecode : decode w = .error .contractViolation := by
      rw [decode_eq_error_iff]
      intro hzero
      simp [rowsAdmitting_eq, hzero] at hnone
    exact ⟨hdecode, eval_of_decode_error hdecode⟩

/-- Settles O32: `eval` is the response, and zero extension leaves the bits above the result 0. -/
theorem responseWordFormat : Obligations.ResponseWordFormat := by
  refine ⟨fun r => ⟨r.getLsbD_toBits_err, r.extractLsb'_toBits_y, r.ofBits_toBits⟩, Response.toBits_ofBits,
    fun s w rest h => ⟨eval w, step_eq_afterExchange_eval h, (eval_err_iff w).symm, ?fault, ?ibytes, ?irgba, ?deint,
      ?getbit⟩⟩
  case fault => intro herr; rw [eval_of_decode_error ((eval_err_iff w).mp herr)]
  case ibytes =>
    intro r g b hdecode
    rw [eval_of_decode_ok hdecode]
    exact ⟨rfl, extractLsb'_setWidth_eq_zero _ 8 (by decide)⟩
  case irgba =>
    intro p hdecode
    rw [eval_of_decode_ok hdecode]
    exact ⟨rfl, extractLsb'_setWidth_eq_zero _ 8 (by decide)⟩
  case deint => intro t hdecode; rw [eval_of_decode_ok hdecode]; rfl
  case getbit =>
    intro x i hdecode
    rw [eval_of_decode_ok hdecode]
    refine ⟨extractLsb'_setWidth_eq_zero _ 31 (by decide), ?_⟩
    rw [resultOf, selectBit, BitVec.getLsbD_setWidth, getLsbD_zero_getBit, decide_eq_true (by decide), Bool.true_and]

/-- Settles O34: every line but `.req` assembles to the word of an instruction, which has no must-be-zero bit set. -/
theorem reqDirectiveAloneWritesMustBeZeroBits : Obligations.ReqDirectiveAloneWritesMustBeZeroBits := by
  refine ⟨?emits, ?refuses, ?alone, fun l w => Line.assemble_cases, ?faults⟩
  case emits =>
    intro w
    have hw : w.toNat ≤ 0xFFFFFFFFFF := by have := w.isLt; omega
    simp [Line.assemble, Line.wellFormed, Line.word, hw]
  case refuses =>
    intro n hn
    simp [Line.assemble, Line.wellFormed, hn]
  case alone =>
    intro l w hl hset
    obtain hreq | ⟨i, -, rfl⟩ := Line.assemble_cases hl
    · exact hreq
    · exact absurd (encode_and_mustBeZeroMask i) hset
  case faults =>
    intro s w rest h hset
    rw [step_eq_afterExchange_eval h, eval_of_decode_error ((decode_eq_error_iff w).mpr hset)]
end

section
/-! SUPPORT. The result of GETBIT, as R40's expression and as the bit it selects, and the decoder on its op code
(40_bit_select.md). -/

namespace Sys2Proof

/-- A field of one bit is that bit. -/
theorem extractLsb'_one {n : Nat} (x : BitVec n) (i : Nat) : x.extractLsb' i 1 = BitVec.ofBool (x.getLsbD i) := by
  rw [← BitVec.setWidth_ushiftRight_eq_extractLsb, BitVec.setWidth_one, BitVec.getLsbD_ushiftRight, Nat.add_zero]

/-- The decoder on GETBIT's op code: `W[37]` alone decides. -/
theorem decode_of_op_getbit {w : Request} (h : Request.op w = 0b11#2) :
    decode w = if w.getLsbD 37 then .error .contractViolation
      else .ok (.getbit (Request.data w) (w.extractLsb' 32 5)) := by
  rw [decode, h, extractLsb'_one]
  cases w.getLsbD 37 <;> rfl

namespace Machine

/-- The result word of GETBIT is R40's `(x >> i) & 1`. -/
theorem resultOf_getbit (x : BitVec 32) (i : BitVec 5) :
    resultOf (.getbit x i) = (x >>> i.toNat) &&& 1#32 := by
  rw [resultOf, selectBit, getBit, BitVec.and_one_eq_setWidth_ofBool_getLsbD,
    BitVec.setWidth_setWidth_of_le (BitVec.ofBool _) (by decide : 1 ≤ 32), BitVec.setWidth_eq]

/-- The result word of GETBIT is 1 when bit `i` of `x` is set, else 0. -/
theorem resultOf_getbit_eq_ite (x : BitVec 32) (i : BitVec 5) :
    resultOf (.getbit x i) = if x.getLsbD i.toNat then 1#32 else 0#32 := by
  rw [resultOf_getbit, BitVec.and_one_eq_setWidth_ofBool_getLsbD, BitVec.getLsbD_ushiftRight, Nat.add_zero]
  cases x.getLsbD i.toNat <;> rfl

theorem exec_getbit (x : BitVec 32) (i : BitVec 5) (s : State) :
    exec (.getbit x i) s = .next
      { s with responses := s.responses ++ [⟨false, if x.getLsbD i.toNat then 1#32 else 0#32⟩] } := by
  rw [exec_eq_respond, respond_eq, resultOf_getbit_eq_ite]

end Machine

end Sys2Proof
end

section
/-! The rule of GETBIT (40_bit_select.md R40). -/

open Sys2Proof Sys2Proof.Machine

/-- Settles O14: the decoder's check of `W[37]` decides between the fault and R40's expression, and each corner case
says which bit of `x` is selected. -/
theorem getbitRequestReadsBitOrFaults : Obligations.GetbitRequestReadsBitOrFaults := by
  refine ⟨?request, ?constantOperand, ?channelValue, ?topBit, ?workedExample⟩
  case request =>
    intro s w rest hpending hop
    have hdecode := decode_of_op_getbit hop
    refine ⟨fun hset => ?_, fun hclear => ?_⟩
    · rw [hset, if_pos rfl] at hdecode
      rw [step_eq_afterExchange_eval hpending, eval_of_decode_error hdecode]
    · rw [hclear, if_neg Bool.false_ne_true] at hdecode
      refine ⟨hdecode, ?_⟩
      rw [step_eq_afterExchange_eval hpending, eval_of_decode_ok hdecode, resultOf_getbit, Request.data]
  case constantOperand =>
    intro i s
    have hones : (0xFFFFFFFF#32).getLsbD i.toNat = true := by
      rw [show 0xFFFFFFFF#32 = BitVec.allOnes 32 from rfl, BitVec.getLsbD_allOnes, decide_eq_true i.isLt]
    simp [exec_getbit, hones]
  case channelValue =>
    intro x i s hx hi
    have hbit : x.getLsbD i.toNat = false :=
      Nat.testBit_lt_two_pow (calc
        x.toNat < 2 ^ 8 := by omega
        _ ≤ 2 ^ i.toNat := Nat.pow_le_pow_right (by decide) hi)
    simp [exec_getbit, hbit]
  case topBit =>
    intro x s
    have hbit : x.getLsbD (31#5).toNat = decide (2 ^ 31 ≤ x.toNat) := x.msb_eq_decide
    simp only [exec_getbit, hbit, decide_eq_true_eq]
  case workedExample =>
    intro s rest hpending
    rw [step_eq_afterExchange_eval hpending]
    rfl
end

section
/-! SUPPORT. What IBYTES and IRGBA answer at the request word, and interleaving as a map of bits (41_interleave.md). -/

namespace Sys2Proof

/-- A field of a field is a field of the word. -/
theorem extractLsb'_extractLsb' {n start len start' len' : Nat} (x : BitVec n) (h : start' + len' ≤ len) :
    (x.extractLsb' start len).extractLsb' start' len' = x.extractLsb' (start + start') len' := by
  apply BitVec.eq_of_getLsbD_eq
  intro k hk
  have hin : start' + k < len := by omega
  simp only [BitVec.getLsbD_extractLsb', hk, hin, decide_true, Bool.true_and, Nat.add_assoc]

/-! ### The decoder on the op codes of the family -/

/-- The decoder on IBYTES's op code: `W[37:24]` alone decides. -/
theorem decode_of_op_ibytes {w : Request} (h : Request.op w = 0b00#2) :
    decode w = if w.extractLsb' 24 14 = 0#14 then
        .ok (.ibytes (w.extractLsb' 16 8) (w.extractLsb' 8 8) (w.extractLsb' 0 8))
      else .error .contractViolation :=
  if_pos h

/-- The decoder on IRGBA's op code: `W[37:32]` alone decides. -/
theorem decode_of_op_irgba {w : Request} (h : Request.op w = 0b01#2) :
    decode w = if w.extractLsb' 32 6 = 0#6 then .ok (.irgba (Request.data w)) else .error .contractViolation := by
  rw [decode, h]
  rfl

namespace Machine

/-! ### One exchange, by what the decoder makes of its request -/

theorem step_of_decode_ok {s : State} {w : Request} {rest : List Request} {i : Instr} (hpending : s.pending = w :: rest)
    (hdecode : decode w = .ok i) : step s = .next (s.afterExchange w rest ⟨false, resultOf i⟩) := by
  rw [step_eq_afterExchange_eval hpending, eval_of_decode_ok hdecode]

theorem step_of_decode_error {s : State} {w : Request} {rest : List Request} (hpending : s.pending = w :: rest)
    (hdecode : decode w = .error .contractViolation) : step s = .next (s.afterExchange w rest ⟨true, 0#32⟩) := by
  rw [step_eq_afterExchange_eval hpending, eval_of_decode_error hdecode]

/-! ### Channels that are fields of a word -/

/-- A triple of three bytes of a word holds the word's bits, at the places of the layout. -/
theorem TripleLayout.getLsbD_of_fields {n i j l : Nat} {t : Triple} {x : BitVec n}
    (h : TripleLayout t (x.extractLsb' i 8) (x.extractLsb' j 8) (x.extractLsb' l 8)) :
    ∀ k < 8, t.getLsbD (3 * k + 2) = x.getLsbD (i + k) ∧ t.getLsbD (3 * k + 1) = x.getLsbD (j + k) ∧
      t.getLsbD (3 * k) = x.getLsbD (l + k) := by
  intro k hk
  simpa only [BitVec.getLsbD_extractLsb', hk, decide_true, Bool.true_and] using h k hk

/-- IRGBA of a request's operand is IBYTES of the request's own bytes. -/
theorem interleaveRgba_data (w : Request) :
    interleaveRgba (Request.data w) =
      interleaveBytes (w.extractLsb' 24 8) (w.extractLsb' 16 8) (w.extractLsb' 8 8) := by
  rw [interleaveRgba_eq_interleaveBytes, channelR, channelG, channelB, Request.data,
    BitVec.extractLsb'_extractLsb'_of_le (by decide), BitVec.extractLsb'_extractLsb'_of_le (by decide),
    BitVec.extractLsb'_extractLsb'_of_le (by decide)]

/-- IRGBA reads the 24 bits above the A byte and no other (41_interleave.md R42). -/
theorem interleaveRgba_eq_interleaveBytes_rgb (p : Packed) :
    interleaveRgba p = interleaveBytes ((p.extractLsb' 8 24).extractLsb' 16 8)
      ((p.extractLsb' 8 24).extractLsb' 8 8) ((p.extractLsb' 8 24).extractLsb' 0 8) := by
  rw [extractLsb'_extractLsb' p (by decide), extractLsb'_extractLsb' p (by decide),
    extractLsb'_extractLsb' p (by decide)]
  exact interleaveRgba_eq_interleaveBytes p

theorem interleaveRgba_congr {p q : Packed} (h : p.extractLsb' 8 24 = q.extractLsb' 8 24) :
    interleaveRgba p = interleaveRgba q := by
  rw [interleaveRgba_eq_interleaveBytes_rgb p, interleaveRgba_eq_interleaveBytes_rgb q, h]

/-! ### The groups of a triple (41_interleave.md R43) -/

/-- Group `k` of a triple is the three bits the layout gives it. -/
theorem TripleLayout.group_eq {t : Triple} {r g b : Channel} (h : TripleLayout t r g b) {k : Nat} (hk : k < 8) :
    t.extractLsb' (3 * k) 3 =
      BitVec.ofBool (r.getLsbD k) ++ BitVec.ofBool (g.getLsbD k) ++ BitVec.ofBool (b.getLsbD k) := by
  obtain ⟨hr, hg, hb⟩ := h k hk
  rw [← hr, ← hg, ← hb, ← extractLsb'_one, ← extractLsb'_one, ← extractLsb'_one,
    BitVec.extractLsb'_append_extractLsb'_eq_extractLsb' (by rfl : 3 * k + 2 = 3 * k + 1 + 1),
    BitVec.extractLsb'_append_extractLsb'_eq_extractLsb' (by rfl : 3 * k + 1 = 3 * k + 1)]

/-- The layout is kept by exclusive or: it moves bits and combines none. -/
theorem TripleLayout.xor {t t' : Triple} {r g b r' g' b' : Channel} (h : TripleLayout t r g b)
    (h' : TripleLayout t' r' g' b') : TripleLayout (t ^^^ t') (r ^^^ r') (g ^^^ g') (b ^^^ b') := by
  intro k hk
  obtain ⟨hr, hg, hb⟩ := h k hk
  obtain ⟨hr', hg', hb'⟩ := h' k hk
  simp only [BitVec.getLsbD_xor, hr, hg, hb, hr', hg', hb', and_self]

theorem interleaveBytes_xor (r g b r' g' b' : Channel) :
    interleaveBytes (r ^^^ r') (g ^^^ g') (b ^^^ b') = interleaveBytes r g b ^^^ interleaveBytes r' g' b' :=
  (tripleLayout_interleaveBytes _ _ _).triple_unique
    ((tripleLayout_interleaveBytes r g b).xor (tripleLayout_interleaveBytes r' g' b'))

/-- Where a single channel bit goes: bit `k` of channel `c` to bit `3k + (2 - c)`. -/
theorem interleaveBytes_twoPow : ∀ k < 8,
    interleaveBytes (BitVec.twoPow 8 k) 0#8 0#8 = BitVec.twoPow 24 (3 * k + (2 - 0)) ∧
    interleaveBytes 0#8 (BitVec.twoPow 8 k) 0#8 = BitVec.twoPow 24 (3 * k + (2 - 1)) ∧
    interleaveBytes 0#8 0#8 (BitVec.twoPow 8 k) = BitVec.twoPow 24 (3 * k + (2 - 2)) := by
  decide

end Machine

end Sys2Proof
end

section
/-! The rules of the interleave family (41_interleave.md R41 to R44). -/

open Sys2Proof Sys2Proof.Machine

/-- Settles O15: the decoder's check of `W[37:24]` decides between the fault and R41's triple of the three bytes. -/
theorem ibytesRequestInterleavesOrFaults : Obligations.IbytesRequestInterleavesOrFaults := by
  refine ⟨?request, ?corners, ?workedExample⟩
  case request =>
    intro s w rest hpending hop
    have hdecode := decode_of_op_ibytes hop
    refine ⟨fun hset => ?_, fun hzero => ?_⟩
    · rw [if_neg hset] at hdecode
      exact step_of_decode_error hpending hdecode
    · rw [if_pos hzero] at hdecode
      have hbits := (tripleLayout_interleaveBytes (w.extractLsb' 16 8) (w.extractLsb' 8 8)
        (w.extractLsb' 0 8)).getLsbD_of_fields
      simp only [Nat.zero_add] at hbits
      exact ⟨hdecode, _, hbits, step_of_decode_ok hpending hdecode⟩
  case corners => decide
  case workedExample =>
    intro s rest hpending
    rw [step_eq_afterExchange_eval hpending]
    rfl

/-- Settles O16: the decoder's check of `W[37:32]` decides between the fault and IBYTES of the three bytes above the
A byte. -/
theorem irgbaRequestInterleavesOrFaults : Obligations.IrgbaRequestInterleavesOrFaults := by
  refine ⟨?request, fun p q => interleaveRgba_congr, ?corners, ?workedExample⟩
  case request =>
    intro s w rest hpending hop
    have hdecode := decode_of_op_irgba hop
    refine ⟨fun hset => ?_, fun hzero => ?_⟩
    · rw [if_neg hset] at hdecode
      exact step_of_decode_error hpending hdecode
    · rw [if_pos hzero] at hdecode
      have hvalue := interleaveRgba_data w
      have hlayout := tripleLayout_interleaveBytes (w.extractLsb' 24 8) (w.extractLsb' 16 8) (w.extractLsb' 8 8)
      rw [← hvalue] at hlayout
      exact ⟨hdecode, hvalue, _, hlayout.getLsbD_of_fields, step_of_decode_ok hpending hdecode⟩
  case corners => exact ⟨by decide, by decide, interleaveRgba_congr (by decide)⟩
  case workedExample =>
    intro s rest hpending
    rw [step_eq_afterExchange_eval hpending]
    exact ⟨rfl, interleaveRgba_eq_interleaveBytes _⟩

/-- Settles O21: the layout gives each group; a flipped channel bit is an exclusive or with that bit alone, which
interleaving sends to one result bit. -/
theorem laneBitReachesOneResultBit : Obligations.LaneBitReachesOneResultBit := by
  intro r g b k hk
  obtain ⟨hr, hg, hb⟩ := interleaveBytes_twoPow k hk
  refine ⟨(tripleLayout_interleaveBytes r g b).group_eq hk, ?red, ?green, ?blue⟩
  case red => rw [← hr, ← interleaveBytes_xor, BitVec.xor_zero, BitVec.xor_zero]
  case green => rw [← hg, ← interleaveBytes_xor, BitVec.xor_zero, BitVec.xor_zero]
  case blue => rw [← hb, ← interleaveBytes_xor, BitVec.xor_zero, BitVec.xor_zero]

/-- Settles O22: R42's loop is R41's loop on the three channels, iteration by iteration, so the two answers are one. -/
theorem irgbaEqualsIbytesOfItsBytes : Obligations.IrgbaEqualsIbytesOfItsBytes := by
  intro p
  have hvalue : interleaveRgba p = interleaveBytes (p.extractLsb' 24 8) (p.extractLsb' 16 8) (p.extractLsb' 8 8) :=
    interleaveRgba_eq_interleaveBytes p
  refine ⟨hvalue, fun s => ?_, fun i hi => getBit_packed p hi⟩
  rw [exec_eq_respond, exec_eq_respond, resultOf, resultOf, hvalue]
end

section
/-! SUPPORT. What DEINT answers, by the channels of its operand and by the bytes of its result (42_deinterleave.md). -/

namespace Sys2Proof

/-- The decoder on DEINT's op code: `W[37:24]` alone decides. -/
theorem decode_of_op_deint {w : Request} (h : Request.op w = 0b10#2) :
    decode w = if w.extractLsb' 24 14 = 0#14 then .ok (.deint (w.extractLsb' 0 24))
      else .error .contractViolation := by
  rw [decode, h]
  rfl

namespace Machine

/-! ### The bytes of a packed word (10_state.md R21) -/

theorem channels_append (r g b a : Channel) :
    channelR (r ++ g ++ b ++ a) = r ∧ channelG (r ++ g ++ b ++ a) = g ∧ channelB (r ++ g ++ b ++ a) = b ∧
      channelA (r ++ g ++ b ++ a) = a := by
  refine ⟨?red, ?green, ?blue, BitVec.extractLsb'_append_eq_right⟩
  case red =>
    rw [channelR, BitVec.extractLsb'_append_eq_of_le (by decide), BitVec.extractLsb'_append_eq_of_le (by decide),
      BitVec.extractLsb'_append_eq_left]
  case green =>
    rw [channelG, BitVec.extractLsb'_append_eq_of_le (by decide), BitVec.extractLsb'_append_eq_of_le (by decide),
      BitVec.extractLsb'_append_eq_right]
  case blue =>
    rw [channelB, BitVec.extractLsb'_append_eq_of_le (by decide), BitVec.extractLsb'_append_eq_right]

/-- Masking the low byte out of a word and setting it to all ones leaves the upper 24 bits. -/
theorem append_and_or_lowByte (x : BitVec 24) (a : Channel) :
    ((x ++ a) &&& 0xFFFFFF00#32) ||| 0xFF#32 = x ++ 0xFF#8 := by
  rw [show 0xFFFFFF00#32 = BitVec.allOnes 24 ++ 0#8 from rfl, show 0xFF#32 = 0#24 ++ 0xFF#8 from rfl,
    BitVec.and_append, BitVec.or_append, BitVec.and_allOnes, BitVec.and_zero, BitVec.or_zero, BitVec.zero_or]

/-! ### DEINT and the layouts -/

/-- DEINT packs the channels its operand is laid out from, with alpha 0xFF. -/
theorem TripleLayout.deInterleavePcm_eq {t : Triple} {r g b : Channel} (h : TripleLayout t r g b) :
    deInterleavePcm t = r ++ g ++ b ++ 0xFF#8 := by
  obtain ⟨rfl, rfl, rfl⟩ := h.channels_unique (tripleLayout_channelOfTriple t)
  rw [deInterleavePcm_eq_packRgba, packRgba_eq_append]

/-- DEINT's operand is laid out from the upper three bytes of its result. -/
theorem tripleLayout_deInterleavePcm (t : Triple) :
    TripleLayout t (channelR (deInterleavePcm t)) (channelG (deInterleavePcm t)) (channelB (deInterleavePcm t)) := by
  have h := tripleLayout_channelOfTriple t
  obtain ⟨hr, hg, hb, -⟩ := channels_append (channelOfTriple 0 t) (channelOfTriple 1 t) (channelOfTriple 2 t) 0xFF#8
  rw [h.deInterleavePcm_eq, hr, hg, hb]
  exact h

theorem channelA_deInterleavePcm (t : Triple) : channelA (deInterleavePcm t) = 0xFF#8 := by
  rw [(tripleLayout_channelOfTriple t).deInterleavePcm_eq]
  exact BitVec.extractLsb'_append_eq_right

/-! ### The inverse laws (42_deinterleave.md R49) -/

theorem deInterleavePcm_interleaveBytes (r g b : Channel) :
    deInterleavePcm (interleaveBytes r g b) = r ++ g ++ b ++ 0xFF#8 :=
  (tripleLayout_interleaveBytes r g b).deInterleavePcm_eq

/-- R49 (a), in the shifts and ors of R47. -/
theorem deInterleavePcm_interleaveBytes_eq_or (r g b : Channel) :
    deInterleavePcm (interleaveBytes r g b) =
      (r.setWidth 32 <<< 24) ||| (g.setWidth 32 <<< 16) ||| (b.setWidth 32 <<< 8) ||| 0xFF#32 := by
  rw [deInterleavePcm_interleaveBytes, ← packRgba_eq_append]
  rfl

/-- IRGBA ignores the A byte. -/
theorem interleaveRgba_append (r g b a : Channel) : interleaveRgba (r ++ g ++ b ++ a) = interleaveBytes r g b := by
  obtain ⟨hr, hg, hb, -⟩ := channels_append r g b a
  rw [interleaveRgba_eq_interleaveBytes, hr, hg, hb]

theorem interleaveRgba_deInterleavePcm (t : Triple) : interleaveRgba (deInterleavePcm t) = t := by
  rw [interleaveRgba_eq_interleaveBytes]
  exact (tripleLayout_interleaveBytes _ _ _).triple_unique (tripleLayout_deInterleavePcm t)

theorem deInterleavePcm_interleaveRgba (p : Packed) :
    deInterleavePcm (interleaveRgba p) = channelR p ++ channelG p ++ channelB p ++ 0xFF#8 := by
  rw [interleaveRgba_eq_interleaveBytes, deInterleavePcm_interleaveBytes]

/-- DEINT reaches every word whose A byte is 0xFF, and no other. -/
theorem exists_deInterleavePcm_eq_iff (y : Packed) : (∃ t, deInterleavePcm t = y) ↔ channelA y = 0xFF#8 := by
  constructor
  · rintro ⟨t, rfl⟩
    exact channelA_deInterleavePcm t
  · intro h
    refine ⟨interleaveRgba y, ?_⟩
    rw [deInterleavePcm_interleaveRgba, ← h, append_channels_eq]

end Machine

end Sys2Proof
end

section
/-! The rules of the de-interleave (42_deinterleave.md R46 to R49). -/

open Sys2Proof Sys2Proof.Machine

/-- Settles O17: the decoder's check of `W[37:24]` decides between the fault and the word whose upper three bytes are
the channels of the operand. -/
theorem deintRequestDeinterleavesOrFaults : Obligations.DeintRequestDeinterleavesOrFaults := by
  refine ⟨?request, ⟨by decide, by decide, ?neverZero⟩, ?workedExample⟩
  case request =>
    intro s w rest hpending hop
    have hdecode := decode_of_op_deint hop
    refine ⟨fun hset => ?_, fun hzero => ?_⟩
    · rw [if_neg hset] at hdecode
      exact step_of_decode_error hpending hdecode
    · rw [if_pos hzero] at hdecode
      refine ⟨hdecode, _, fun k hk => ?_, channelA_deInterleavePcm _, step_of_decode_ok hpending hdecode⟩
      have hoperand (j : Nat) (hj : j < 24) : (w.extractLsb' 0 24).getLsbD j = w.getLsbD j := by
        rw [BitVec.getLsbD_extractLsb', decide_eq_true hj, Bool.true_and, Nat.zero_add]
      obtain ⟨hr, hg, hb⟩ := (tripleLayout_deInterleavePcm (w.extractLsb' 0 24)).getLsbD_of_fields k hk
      rw [hoperand _ (by omega)] at hr hg hb
      exact ⟨hr.symm, hg.symm, hb.symm⟩
  case neverZero =>
    intro t hzero
    have halpha := channelA_deInterleavePcm t
    rw [hzero] at halpha
    exact absurd halpha (by decide)
  case workedExample =>
    intro s rest hpending
    rw [step_eq_afterExchange_eval hpending]
    rfl

/-- Settles O23: DEINT of a triple is the concatenation of its channels and 0xFF, whose bytes IRGBA reads. -/
theorem deintPacksChannelsAsIrgbaReadsThem : Obligations.DeintPacksChannelsAsIrgbaReadsThem := by
  intro r g b
  refine ⟨deInterleavePcm_interleaveBytes_eq_or r g b, ?_⟩
  obtain ⟨hr, hg, hb, ha⟩ := channels_append r g b 0xFF#8
  rw [deInterleavePcm_interleaveBytes]
  exact ⟨ha, hb, hg, hr, interleaveRgba_append r g b⟩

/-- Settles O24: from any start values the accumulators end as the channels of the operand. -/
theorem deintStartValuesAreShiftedOut : Obligations.DeintStartValuesAreShiftedOut := by
  refine ⟨fun t => rfl, fun r g b t => ?_⟩
  rw [deInterleavePcmFrom_eq_packRgba, deInterleavePcm_eq_packRgba]

/-- Settles O26: a triple, its three channels and the upper three bytes of DEINT's word determine one another. -/
theorem interleaveAndDeinterleaveAreInverse : Obligations.InterleaveAndDeinterleaveAreInverse := by
  refine ⟨deInterleavePcm_interleaveBytes_eq_or, interleaveRgba_deInterleavePcm, fun p => ?masked,
    Function.LeftInverse.injective interleaveRgba_deInterleavePcm, exists_deInterleavePcm_eq_iff⟩
  case masked =>
    calc deInterleavePcm (interleaveRgba p) = channelR p ++ channelG p ++ channelB p ++ 0xFF#8 :=
          deInterleavePcm_interleaveRgba p
      _ = ((channelR p ++ channelG p ++ channelB p ++ channelA p) &&& 0xFFFFFF00#32) ||| 0xFF#32 :=
          (append_and_or_lowByte _ _).symm
      _ = (p &&& 0xFFFFFF00#32) ||| 0xFF#32 := by rw [append_channels_eq]
end

section
/-! SUPPORT. ContractViolation at the request word (60_exceptions.md R50 to R54), the one step a machine can take, and
runs of several steps (R57). -/

namespace Sys2Proof

/-- R50's cause for each operation, field by field, is R34's mask. -/
theorem Request.mustBeZero_set_iff (w : Request) :
    w &&& mustBeZeroMask (Request.op w) ≠ 0#40 ↔
      (Request.op w = 0b00#2 ∧ w.extractLsb' 24 14 ≠ 0#14) ∨
      (Request.op w = 0b01#2 ∧ Request.ext w ≠ 0#6) ∨
      (Request.op w = 0b10#2 ∧ w.extractLsb' 24 14 ≠ 0#14) ∨
      (Request.op w = 0b11#2 ∧ w.extractLsb' 37 1 ≠ 0#1) := by
  rcases op_cases (Request.op w) with h | h | h | h
  · simp [h, mustBeZeroMask, Request.and_mask_37_24_eq_zero_iff]
  · simp [h, mustBeZeroMask, Request.and_mask_37_32_eq_zero_iff]
  · simp [h, mustBeZeroMask, Request.and_mask_37_24_eq_zero_iff]
  · simp [h, mustBeZeroMask, Request.and_mask_37_eq_zero_iff]

namespace Machine

/-! ### Exchanges -/

/-- After a response with `err = 1` the mark is set, whatever it was. -/
theorem State.afterExchange_of_err (s : State) (w : Request) (rest : List Request) (y : ResultWord) :
    s.afterExchange w rest ⟨true, y⟩ =
      { pending := rest, presented := s.presented ++ [w], responses := s.responses ++ [⟨true, y⟩],
        faulted := true } := by
  simp [State.afterExchange]

/-- Two exchanges in a row: both requests and both responses stand in order, and either response sets the mark. -/
theorem State.afterExchange_afterExchange (s : State) (w w' : Request) (mid rest : List Request) (r r' : Response) :
    (s.afterExchange w mid r).afterExchange w' rest r' =
      { pending := rest, presented := s.presented ++ [w, w'], responses := s.responses ++ [r, r'],
        faulted := s.faulted || r.err || r'.err } := by
  simp [State.afterExchange]

theorem State.afterRun_of_pending_eq_nil {s : State} (h : s.pending = []) : s.afterRun = s := by
  obtain ⟨pending, presented, responses, faulted⟩ := s
  obtain rfl : pending = [] := h
  simp [State.afterRun]

/-- The first exchange is part of the whole run. -/
theorem State.afterRun_afterExchange {s : State} {w : Request} {rest : List Request} (h : s.pending = w :: rest) :
    (s.afterExchange w rest (eval w)).afterRun = s.afterRun := by
  simp [State.afterRun, State.afterExchange, h, Bool.or_assoc]

/-! ### Steps -/

/-- A step that has a next state exchanges the first request left for `eval` of it. -/
theorem exists_exchange_of_step_eq_next {s t : State} (h : step s = .next t) :
    ∃ w rest, s.pending = w :: rest ∧ t = s.afterExchange w rest (eval w) := by
  obtain ⟨-, hstop⟩ | ⟨w, rest, hpending, -⟩ := step_cases s
  · simp [hstop] at h
  · rw [step_eq_afterExchange_eval hpending, Host.Outcome.next.injEq] at h
    exact ⟨w, rest, hpending, h.symm⟩

theorem step_keeps_mark {s t : State} (h : step s = .next t) (hmark : s.faulted = true) : t.faulted = true := by
  obtain ⟨w, rest, -, rfl⟩ := exists_exchange_of_step_eq_next h
  rw [State.afterExchange_faulted, hmark, Bool.true_or]

/-- A step of a request with a must-be-zero bit set answers the fault response (60_exceptions.md R51). -/
theorem step_of_mustBeZero_set {s : State} {w : Request} {rest : List Request} (hpending : s.pending = w :: rest)
    (hset : w &&& mustBeZeroMask (Request.op w) ≠ 0#40) : step s = .next (s.afterExchange w rest ⟨true, 0#32⟩) :=
  step_of_decode_error hpending ((decode_eq_error_iff w).mpr hset)

/-! ### Runs -/

/-- What every step keeps holds after any number of steps. -/
theorem run_keeps (M : Host.Core) {P : M.State → Prop} (hkeep : ∀ {s t}, M.step s = .next t → P s → P t) (n : Nat)
    {s t : M.State} (hrun : M.run n s = .next t) (hs : P s) : P t := by
  induction n generalizing s with
  | zero =>
    obtain rfl : s = t := Host.Outcome.next.inj hrun
    exact hs
  | succ n ih =>
    rw [Host.Core.run] at hrun
    split at hrun
    · next u hstep => exact ih hrun (hkeep hstep hs)
    · contradiction
    · contradiction

/-- A whole run presents every request the host has left and records `eval` of each. -/
theorem runAll_eq_afterRun (s : State) : runAll s = .next s.afterRun := by
  unfold runAll
  generalize hpending : s.pending = ws
  induction ws generalizing s with
  | nil => rw [State.afterRun_of_pending_eq_nil hpending]; rfl
  | cons w rest ih =>
    rw [List.length_cons, core_run_succ_of_next (step_eq_afterExchange_eval hpending),
      ih (s.afterExchange w rest (eval w)) rfl, State.afterRun_afterExchange hpending]

end Machine

end Sys2Proof
end

section
/-! ContractViolation and the faulted run (60_exceptions.md R50 to R57). -/

open Sys2Proof Sys2Proof.Machine

/-- Settles O42: by induction on the requests left for the whole run, and on the number of steps for the mark, which
every step keeps. -/
theorem runRecordsEveryResponseAndKeepsTheMark : Obligations.RunRecordsEveryResponseAndKeepsTheMark :=
  fun s => ⟨runAll_eq_afterRun s, fun n _ hrun hmark => run_keeps Sys2Proof.core step_keeps_mark n hrun hmark⟩

/-- Settles O36: the response is `eval` of the request, which is a fault exactly when the decoder's check fails. -/
theorem contractViolationHasOneCausePerOperation : Obligations.ContractViolationHasOneCausePerOperation := by
  intro s w rest hpending
  refine ⟨eval w, step_eq_afterExchange_eval hpending, ?cause, fun herr => ?response⟩
  case cause => rw [eval_err_iff, decode_eq_error_iff]; exact w.mustBeZero_set_iff
  case response => exact eval_of_decode_error ((eval_err_iff w).mp herr)

/-- Settles O37: the fault's exchange sets the mark, and the next exchange answers `eval` of its own request. -/
theorem contractViolationDrivesFaultResponse : Obligations.ContractViolationDrivesFaultResponse := by
  intro s w rest hpending hset
  have hfault := step_of_mustBeZero_set hpending hset
  refine ⟨by rw [hfault, State.afterExchange_of_err], ?next⟩
  case next =>
    rintro w' rest' rfl
    rw [core_run_succ_of_next hfault, core_run_succ_of_next (step_eq_afterExchange_eval rfl), core_run_zero,
      State.afterExchange_afterExchange]
    simp

/-- Settles O38: each of the two steps answers the one fault response. -/
theorem violationsAreNotToldApart : Obligations.ViolationsAreNotToldApart :=
  fun _ _ _ _ _ _ hpending hpending' hset hset' =>
    ⟨_, _, step_of_mustBeZero_set hpending hset, rfl, step_of_mustBeZero_set hpending' hset', rfl⟩

/-- Settles O39: with or without the fault before it, the request is answered with `eval` of it. -/
theorem requestAfterFaultIsEvaluatedAsIfNone : Obligations.RequestAfterFaultIsEvaluatedAsIfNone := by
  intro s bad w rest hpending hset
  rw [← State.afterExchange_of_err]
  refine ⟨eval w, _, step_of_mustBeZero_set hpending hset, ?after, step_eq_afterExchange_eval rfl, rfl⟩
  case after =>
    rw [step_eq_afterExchange_eval rfl, State.afterExchange_afterExchange]
    simp
end

section
/-! Reset (70_reset_and_hazards.md R59). -/

open Sys2Proof Sys2Proof.Machine

/-- Settles O7: the response is `eval` of the request, which reads nothing of the state, so the reset record and the
record of any other state get the same one. -/
theorem firstRequestIsEvaluatedLikeAnyOther : Obligations.FirstRequestIsEvaluatedLikeAnyOther := by
  intro w others s rest hpending
  have hreset : step { State.reset with pending := w :: others } =
      .next (State.afterExchange { State.reset with pending := w :: others } w others (eval w)) :=
    step_eq_afterExchange_eval rfl
  have hany : step s = .next (s.afterExchange w rest (eval w)) := step_eq_afterExchange_eval hpending
  exact ⟨eval w, _, _, hreset, State.afterExchange_responses .., hany, State.afterExchange_responses ..⟩
end

section
/-! SUPPORT. The word of an instruction and the instruction of a word, and the assembler's lines with their operands as
they are written (30_encoding.md R31, R33, R35, R38). -/

namespace Sys2Proof

/-! ### The encoder and the decoder -/

/-- Reading the fields of an encoded word gives the op code and the operands that were written there. -/
theorem Request.instr_encode (i : Instr) : Request.instr (encode i) = i := by
  cases i <;>
    simp (disch := decide) only [Request.instr, Request.op, Request.data, encode, BitVec.extractLsb'_append_eq_of_le,
      BitVec.extractLsb'_append_eq_of_add_le, BitVec.extractLsb'_eq_self, Nat.reduceSub, Nat.sub_self, reduceIte,
      BitVec.reduceEq]

theorem decode_encode (i : Instr) : decode (encode i) = .ok i :=
  (decode_eq_ok_iff _ i).mpr ⟨encode_and_mustBeZeroMask i, Request.instr_encode i⟩

/-- The op code, the must-be-zero bits and the operands are the whole of a word. -/
theorem encode_instr {w : Request} (h : w &&& mustBeZeroMask (Request.op w) = 0#40) : encode w.instr = w := by
  rcases op_cases (Request.op w) with hop | hop | hop | hop <;> rw [hop] at h
  · have hzero : w.extractLsb' 24 14 = 0#14 := w.and_mask_37_24_eq_zero_iff.mp h
    have hinstr : w.instr = .ibytes (w.extractLsb' 16 8) (w.extractLsb' 8 8) (w.extractLsb' 0 8) := by
      rw [Request.instr, hop]; rfl
    rw [hinstr, encode, ← hop, ← hzero, Request.op]
    simp (disch := decide) only [BitVec.extractLsb'_append_extractLsb'_eq_extractLsb', BitVec.extractLsb'_eq_self]
  · have hzero : Request.ext w = 0#6 := w.and_mask_37_32_eq_zero_iff.mp h
    have hinstr : w.instr = .irgba (Request.data w) := by rw [Request.instr, hop]; rfl
    rw [hinstr, encode, ← hop, ← hzero]
    exact w.fields_eq.symm
  · have hzero : w.extractLsb' 24 14 = 0#14 := w.and_mask_37_24_eq_zero_iff.mp h
    have hinstr : w.instr = .deint (w.extractLsb' 0 24) := by rw [Request.instr, hop]; rfl
    rw [hinstr, encode, ← hop, ← hzero, Request.op]
    simp (disch := decide) only [BitVec.extractLsb'_append_extractLsb'_eq_extractLsb', BitVec.extractLsb'_eq_self]
  · have hzero : w.extractLsb' 37 1 = 0#1 := w.and_mask_37_eq_zero_iff.mp h
    have hinstr : w.instr = .getbit (Request.data w) (w.extractLsb' 32 5) := by rw [Request.instr, hop]; rfl
    rw [hinstr, encode, ← hop, ← hzero, Request.op, Request.data]
    simp (disch := decide) only [BitVec.extractLsb'_append_extractLsb'_eq_extractLsb', BitVec.extractLsb'_eq_self]

/-! ### Table words (log 9) -/

theorem tableRequest_toNat (w : Request) : tableRequest 40 w.toNat = w := by
  rw [tableRequest, Nat.min_self, Nat.mod_eq_of_lt w.isLt, BitVec.ofNat_toNat, BitVec.setWidth_eq]

/-! ### The assembler's lines -/

theorem Line.assemble_eq_none_iff (l : Line) : l.assemble = none ↔ l.wellFormed = false := by
  rw [Line.assemble]
  split <;> simp [*]

/-- A number below `2 ^ n` is the value of its `n`-bit word. -/
theorem toNat_ofNat_of_le {n x : Nat} (h : x ≤ 2 ^ n - 1) : (BitVec.ofNat n x).toNat = x :=
  Nat.mod_eq_of_lt (Nat.lt_of_le_pred (Nat.two_pow_pos n) h)

namespace Machine

/-- The text before the first `;` is the same whatever follows that `;`. -/
theorem stripComment_append_comment (text comment : List Char) :
    stripComment (text ++ ';' :: comment) = stripComment text := by
  induction text with
  | nil => rfl
  | cons c cs ih =>
    simp only [stripComment, List.cons_append, List.takeWhile_cons] at ih ⊢
    rw [ih]

end Machine

end Sys2Proof
end

section
/-! Encoding and decoding, and the assembler (30_encoding.md). -/

open Sys2Proof Sys2Proof.Machine

/-- Settles O28: no must-be-zero bit of the word is set, and its fields are the operands. -/
theorem decodeOfEncodeIsTheInstruction : Obligations.DecodeOfEncodeIsTheInstruction := decode_encode

/-- Settles O29: a word that decodes has its must-be-zero bits zero, so its fields, which the instruction holds, are all
of it. -/
theorem encodeOfDecodeIsTheWord : Obligations.EncodeOfDecodeIsTheWord := by
  intro w i hdecode
  obtain ⟨hzero, rfl⟩ := (decode_eq_ok_iff w i).mp hdecode
  exact encode_instr hzero

/-- Settles O3: the decoder run on the five words. -/
theorem specWordsDecodeToTheirInstructions : Obligations.SpecWordsDecodeToTheirInstructions := by
  unfold Obligations.SpecWordsDecodeToTheirInstructions
  decide

/-- Settles O33: a line with its operands in range is the line of an instruction; the range check refuses any other. -/
theorem assembledLineIsTheInstructionsWord : Obligations.AssembledLineIsTheInstructionsWord := by
  refine ⟨fun r g b => ⟨?ibytes, ?ibytesOut⟩, fun p => ⟨?irgba, ?irgbaOut⟩, fun x => ⟨?deint, ?deintOut⟩,
    fun x i => ⟨?getbit, ?getbitOut⟩, Instr.assemble_toLine⟩
  case ibytes =>
    rintro ⟨hr, hg, hb⟩
    rw [← Instr.assemble_toLine, Instr.toLine, toNat_ofNat_of_le hr, toNat_ofNat_of_le hg, toNat_ofNat_of_le hb]
  case irgba =>
    intro hp
    rw [← Instr.assemble_toLine, Instr.toLine, toNat_ofNat_of_le hp]
  case deint =>
    intro hx
    rw [← Instr.assemble_toLine, Instr.toLine, toNat_ofNat_of_le hx]
  case getbit =>
    rintro ⟨hx, hi⟩
    rw [← Instr.assemble_toLine, Instr.toLine, toNat_ofNat_of_le hx, toNat_ofNat_of_le hi]
  all_goals
    intro hout
    rw [Line.assemble_eq_none_iff]
    simp only [Line.wellFormed, Bool.and_eq_false_iff, decide_eq_false_iff_not]
    omega

/-- Settles O35: a comment is not part of the text that is read, and the first word is compared in lower case. -/
theorem assemblerIgnoresCommentsAndMnemonicCase : Obligations.AssemblerIgnoresCommentsAndMnemonicCase := by
  refine ⟨fun text comment => ?comment, fun word word' operands hcase => ?letterCase, by decide⟩
  case comment =>
    unfold readLine
    rw [stripComment_append_comment]
  case letterCase =>
    unfold lineOf
    rw [hcase]
end

section
/-! SUPPORT. What an instruction answers in any state, and the steps of a host that adds its requests one by one. -/

namespace Sys2Proof.Machine

/-- An instruction adds its result to the record of responses and leaves all else as it was. -/
theorem exec_eq (i : Instr) (s : State) :
    exec i s = .next { s with responses := s.responses ++ [⟨false, resultOf i⟩] } := by
  rw [exec_eq_respond, respond_eq]

/-- The step on a request that decodes is `exec` of its instruction once the request stands at the input. -/
theorem step_eq_exec {s : State} {w : Request} {rest : List Request} {i : Instr} (hpending : s.pending = w :: rest)
    (hdecode : decode w = .ok i) :
    step s = exec i { s with pending := rest, presented := s.presented ++ [w] } := by
  simp only [step, State.present_eq_some hpending, hdecode]

theorem step_ne_refused (s : State) (r : Refusal) : step s ≠ .refused r := by
  obtain ⟨-, hstop⟩ | ⟨w, rest, hpending, -⟩ := step_cases s
  · simp [hstop]
  · simp [step_eq_afterExchange_eval hpending]

@[simp] theorem State.afterExchange_request (s : State) (w : Request) (rest : List Request) (r : Response) :
    (s.afterExchange w rest r).request = some w := by
  simp [State.request]

@[simp] theorem State.afterExchange_response (s : State) (w : Request) (rest : List Request) (r : Response) :
    (s.afterExchange w rest r).response = some r := by
  simp [State.response]

/-- A host with no request left that adds the word of an instruction gets that instruction's result next, and then has
no request left again. -/
theorem step_submit_encode {s : State} (h : s.pending = []) (i : Instr) :
    ∃ t, step (s.submit (encode i)) = .next t ∧ t.pending = [] ∧ t.response = some ⟨false, resultOf i⟩ ∧
      t.faulted = s.faulted := by
  have hpending : (s.submit (encode i)).pending = [encode i] := by rw [State.submit_pending, h, List.nil_append]
  exact ⟨_, step_of_decode_ok hpending (decode_encode i), rfl, State.afterExchange_response .., by simp⟩

/-! ### The closed forms (41_interleave.md R43, 10_state.md R20) -/

theorem tripleLayout_tripleOfChannels (r g b : Channel) : TripleLayout (tripleOfChannels r g b) r g b := by
  intro k hk
  have hbits (j : Nat) (hj : j < 3) : (tripleOfChannels r g b).getLsbD (3 * k + j) =
      if j = 2 then r.getLsbD k else if j = 1 then g.getLsbD k else b.getLsbD k := by
    rw [tripleOfChannels, getLsbD_ofBits, decide_eq_true (by omega), Bool.true_and,
      show (3 * k + j) % 3 = j by omega, show (3 * k + j) / 3 = k by omega]
  exact ⟨hbits 2 (by decide), hbits 1 (by decide), hbits 0 (by decide)⟩

theorem interleaveBytes_eq_tripleOfChannels (r g b : Channel) : interleaveBytes r g b = tripleOfChannels r g b :=
  (tripleLayout_interleaveBytes r g b).triple_unique (tripleLayout_tripleOfChannels r g b)

/-- R41's loop gives the same from any start value. -/
theorem interleaveBytesFrom_eq_interleaveBytes (t : Triple) (r g b : Channel) :
    interleaveBytesFrom t r g b = interleaveBytes r g b :=
  (tripleLayout_interleaveBytesFrom t r g b).triple_unique (tripleLayout_interleaveBytes r g b)

end Sys2Proof.Machine
end

section
/-! SUPPORT. The record of a run and its mark (20_memory.md section 4, 60_exceptions.md R57), and, beside the machine,
the register stages (70_reset_and_hazards.md R62) and several machines in a list (20_memory.md R27). -/

namespace Sys2Proof.Machine

/-! ### The record of a run -/

theorem State.RunInv.afterExchange {s : State} (h : s.RunInv) (w : Request) (rest : List Request) :
    (s.afterExchange w rest (eval w)).RunInv := by
  obtain ⟨hresponses, hmark⟩ := h
  constructor
  · simp [hresponses]
  · simp [hmark]

/-- A response is no fault exactly when its request has its must-be-zero bits zero. -/
theorem eval_err_eq_false_iff (w : Request) : (eval w).err = false ↔ PreMasked w := by
  rw [← Bool.not_eq_true, eval_err_iff, decode_eq_error_iff, not_not, PreMasked]

theorem State.faultFree_afterRun_iff {s : State} (h : s.FaultFree) :
    s.afterRun.FaultFree ↔ ∀ w ∈ s.pending, PreMasked w := by
  have hmark : s.faulted = false := h
  simp [State.FaultFree, hmark, eval_err_eq_false_iff]

/-- From empty records a run pairs each request with `eval` of it. -/
theorem State.zip_afterRun {s : State} (hpresented : s.presented = []) (hresponses : s.responses = []) :
    s.afterRun.presented.zip s.afterRun.responses = s.pending.map fun w => (w, eval w) := by
  rw [State.afterRun_presented, State.afterRun_responses, hpresented, hresponses, List.nil_append, List.nil_append,
    List.map_prod_left_eq_zip]

/-! ### Register stages (70_reset_and_hazards.md R62, log 7) -/

/-- The outputs are the stages' contents followed by `eval` of the requests, one per clock. -/
theorem Pipeline.outputs_eq_take (p : Pipeline) (ws : List Request) :
    p.outputs ws = (p ++ ws.map eval).take ws.length := by
  induction ws generalizing p with
  | nil => rfl
  | cons w ws ih =>
    cases p with
    | nil => rw [Pipeline.outputs, ih]; rfl
    | cons r stages => rw [Pipeline.outputs, ih]; simp [Pipeline.clock]

/-! ### Several machines (20_memory.md R27, log 11) -/

/-- The state a step answers, none if it stops. -/
def State.next? (s : State) : Option State :=
  match step s with
  | .next t => some t
  | .fault _ => none
  | .refused _ => none

/-- Machine `k` steps on its own entry alone, and its next state takes that entry's place. -/
theorem Instances.stepAt_eq (sys : Instances) (k : Nat) :
    sys.stepAt k = (sys[k]?.bind State.next?).bind fun t => some (sys.set k t) := by
  rw [Instances.stepAt]
  cases sys[k]? with
  | none => rfl
  | some s =>
    simp only [Option.bind_some, State.next?]
    cases step s <;> rfl

/-- Two machines one after the other: each steps on the entry it has at the start. -/
theorem Instances.stepAt_bind_stepAt (sys : Instances) {j k : Nat} (h : j ≠ k) :
    (sys.stepAt j).bind (fun sys' => sys'.stepAt k) =
      (sys[j]?.bind State.next?).bind fun t => (sys[k]?.bind State.next?).bind fun u =>
        some ((sys.set j t).set k u) := by
  simp only [Instances.stepAt_eq, Option.bind_assoc, Option.bind_some, List.getElem?_set_ne h]

end Sys2Proof.Machine
end

section
/-! What the instructions answer, in every state, and the closed forms of their results (40_bit_select.md,
41_interleave.md, 42_deinterleave.md). -/

open Sys2Proof Sys2Proof.Machine

/-- Settles O8: the result word is the selected bit. -/
theorem getbitAnswersSelectedBit : Obligations.GetbitAnswersSelectedBit := exec_getbit

/-- Settles O9: R41's loop makes R20's layout. -/
theorem ibytesAnswersInterleavedTriple : Obligations.IbytesAnswersInterleavedTriple :=
  fun r g b s => ⟨interleaveBytes r g b, tripleLayout_interleaveBytes r g b, exec_eq (.ibytes r g b) s⟩

/-- Settles O10: R42's loop makes R20's layout of the three bytes above the A byte. -/
theorem irgbaAnswersInterleavedTriple : Obligations.IrgbaAnswersInterleavedTriple := by
  intro p s
  have hlayout : TripleLayout (interleaveRgba p) (channelR p) (channelG p) (channelB p) := by
    rw [interleaveRgba_eq_interleaveBytes]
    exact tripleLayout_interleaveBytes _ _ _
  exact ⟨interleaveRgba p, hlayout.getLsbD_of_fields, exec_eq (.irgba p) s⟩

/-- Settles O11: the operand has R20's layout of the upper three bytes of the result, whose A byte is all ones. -/
theorem deintAnswersPackedChannels : Obligations.DeintAnswersPackedChannels := by
  intro x s
  refine ⟨deInterleavePcm x, fun k hk => ?_, exec_eq (.deint x) s⟩
  obtain ⟨hr, hg, hb⟩ := (tripleLayout_deInterleavePcm x).getLsbD_of_fields k hk
  have halpha : (deInterleavePcm x).getLsbD k = true := calc
    (deInterleavePcm x).getLsbD k = (channelA (deInterleavePcm x)).getLsbD k := by simp [channelA, hk]
    _ = (BitVec.allOnes 8).getLsbD k := by rw [channelA_deInterleavePcm]; rfl
    _ = true := by rw [BitVec.getLsbD_allOnes, decide_eq_true hk]
  exact ⟨hr.symm, hg.symm, hb.symm, halpha⟩

/-- Settles O12: the one thing an instruction does is to record its result. -/
theorem execOnlyRecordsOneResult : Obligations.ExecOnlyRecordsOneResult := by
  intro i s t hexec
  rw [exec_eq, Host.Outcome.next.injEq] at hexec
  subst hexec
  exact ⟨rfl, rfl, rfl, resultOf i, rfl⟩

/-- Settles O13: `exec` always responds, and a step either finds no request or answers the one it finds. -/
theorem everyRequestIsAnswered : Obligations.EveryRequestIsAnswered := by
  refine ⟨fun i s => ⟨_, exec_eq i s⟩, fun s hpending => ?_, step_ne_refused⟩
  obtain ⟨w, rest, hcons⟩ := List.exists_cons_of_ne_nil hpending
  exact ⟨_, step_eq_afterExchange_eval hcons⟩

/-- Settles O18: the loops and the closed forms have the same layout, which leaves no bit open. -/
theorem loopsEqualClosedForms : Obligations.LoopsEqualClosedForms := by
  refine ⟨interleaveBytes_eq_tripleOfChannels, fun p => ?_,
    fun x => (tripleLayout_channelOfTriple x).deInterleavePcm_eq⟩
  rw [interleaveRgba_eq_interleaveBytes, interleaveBytes_eq_tripleOfChannels]

/-- Settles O25: the loop makes its layout from any start value, and IRGBA's loop is IBYTES's on the three bytes. -/
theorem interleaveStartValueIsShiftedOut : Obligations.InterleaveStartValueIsShiftedOut := by
  refine ⟨fun r g b => rfl, fun p => rfl, interleaveBytesFrom_eq_interleaveBytes, fun t p => ?_⟩
  rw [interleaveRgbaFrom_eq_interleaveBytesFrom, interleaveBytesFrom_eq_interleaveBytes,
    interleaveRgba_eq_interleaveBytes]

/-- Settles O27: each of the three steps answers its instruction's result, and the low 24 bits of the first are the
triple whose channels DEINT packs and IRGBA reads. -/
theorem hostRoundTripGivesFirstResponseBack : Obligations.HostRoundTripGivesFirstResponseBack := by
  intro s r g b hpending
  obtain ⟨t, hstep, htpending, hty, htmark⟩ := step_submit_encode hpending (.ibytes r g b)
  have htriple : ((interleaveBytes r g b).setWidth 32).extractLsb' 0 24 = interleaveBytes r g b := by
    rw [← BitVec.setWidth_eq_extractLsb' (by decide), BitVec.setWidth_setWidth_of_le _ (by decide),
      BitVec.setWidth_eq]
  obtain ⟨u, hstep', hupending, huz, humark⟩ := step_submit_encode htpending (.deint (interleaveBytes r g b))
  obtain ⟨v, hstep'', -, hvy, hvmark⟩ := step_submit_encode hupending (.irgba (r ++ g ++ b ++ 0xFF#8))
  rw [resultOf, deInterleavePcm_interleaveBytes] at huz
  rw [resultOf, interleaveRgba_append] at hvy
  refine ⟨t, u, v, (interleaveBytes r g b).setWidth 32, r ++ g ++ b ++ 0xFF#8, hstep, hty, ?_, huz, rfl, hstep'', hvy,
    hvmark.trans (humark.trans htmark)⟩
  rw [htriple]
  exact hstep'
end

section
/-! Runs, register stages and several machines; reset and the step (20_memory.md, 60_exceptions.md,
70_reset_and_hazards.md). -/

open Sys2Proof Sys2Proof.Machine

/-- Settles O40: a step is one exchange, whose response is `eval` of its request. -/
theorem runInvariantKeptByEveryStep : Obligations.RunInvariantKeptByEveryStep := by
  intro s t hinv hstep
  obtain ⟨w, rest, -, rfl⟩ := exists_exchange_of_step_eq_next hstep
  exact hinv.afterExchange w rest

/-- Settles O41: a step is one exchange of the first request left. -/
theorem stepConsumesOneRequestInOrder : Obligations.StepConsumesOneRequestInOrder := by
  intro s t hstep
  obtain ⟨w, rest, hpending, rfl⟩ := exists_exchange_of_step_eq_next hstep
  simp [hpending]

/-- Settles O43: the function is `eval`. -/
theorem responseDependsOnRequestAlone : Obligations.ResponseDependsOnRequestAlone :=
  ⟨eval, fun _ _ _ hpending => ⟨_, step_eq_afterExchange_eval hpending, State.afterExchange_responses ..⟩⟩

/-- Settles O44: the run records `eval` of the request each time. -/
theorem repeatedRequestGetsOneResponse : Obligations.RepeatedRequestGetsOneResponse := by
  intro w
  refine ⟨eval w, fun s n hpending => ⟨s.afterRun, runAll_eq_afterRun s, ?_⟩⟩
  rw [State.afterRun_responses, hpending, List.map_replicate]

/-- Settles O45: each request is paired with `eval` of it, so a permutation of the requests is one of the pairs. -/
theorem responsesDoNotDependOnOrder : Obligations.ResponsesDoNotDependOnOrder := by
  intro s s' hperm hpresented hresponses hpresented' hresponses'
  refine ⟨s.afterRun, s'.afterRun, runAll_eq_afterRun s, runAll_eq_afterRun s', ?_⟩
  rw [State.zip_afterRun hpresented hresponses, State.zip_afterRun hpresented' hresponses']
  exact hperm.map _

/-- Settles O46: the run ends in the state that `afterRun` says, whose mark is the requests' own. -/
theorem runIsFaultFreeIffPreMasked : Obligations.RunIsFaultFreeIffPreMasked := by
  intro s hfree
  rw [← State.faultFree_afterRun_iff hfree, runAll_eq_afterRun]
  constructor
  · rintro ⟨t, hrun, ht⟩
    rwa [Host.Outcome.next.inj hrun]
  · exact fun ht => ⟨_, rfl, ht⟩

/-- Settles O47: the outputs are the stages' contents and then `eval` of the requests, cut at the number of clocks. -/
theorem pipelineDelaysResponsesInOrder : Obligations.PipelineDelaysResponsesInOrder := by
  refine ⟨fun p ws => ⟨?length, ?delayed⟩, fun ws => ?noStage⟩
  case length => simp [Pipeline.outputs_eq_take]
  case delayed => rw [Pipeline.outputs_eq_take, List.drop_take, List.drop_left]
  case noStage => simp [Pipeline.outputs_eq_take]

/-- Settles O48: each step reads and replaces one entry of the list, so two steps on different entries commute. -/
theorem instancesAreIndependent : Obligations.InstancesAreIndependent := by
  refine ⟨fun sys sys' j k hstep hne => ?others, fun sys j k hne => ?order⟩
  case others =>
    rw [Instances.stepAt_eq, Option.bind_eq_some_iff] at hstep
    obtain ⟨t, -, hset⟩ := hstep
    rw [← Option.some.inj hset, List.getElem?_set_ne hne.symm]
  case order =>
    rw [Instances.stepAt_bind_stepAt sys hne, Instances.stepAt_bind_stepAt sys hne.symm, Option.bind_comm]
    simp only [List.set_comm _ _ hne]

/-- Settles O1: the fields of the reset state. -/
theorem resetHoldsNoRun : Obligations.ResetHoldsNoRun := ⟨rfl, rfl, rfl, rfl, rfl, rfl⟩

/-- Settles O2: both records are empty and the mark is clear. -/
theorem resetMeetsRunInvariant : Obligations.ResetMeetsRunInvariant := ⟨rfl, rfl⟩

/-- Settles O4: presenting the request moves it to the input, and the decoder selects the instruction. -/
theorem stepRunsDecodedInstruction : Obligations.StepRunsDecodedInstruction :=
  fun _ _ _ _ => step_eq_exec

/-- Settles O5: nothing can be presented. -/
theorem stepStopsWhenRunHasEnded : Obligations.StepStopsWhenRunHasEnded := by
  intro s hpending
  rw [step, State.present_eq_none hpending]

/-- Settles O6: the table word of an instruction's word is that word, which decodes to the instruction. -/
theorem fetchWordIsTheNextRequest : Obligations.FetchWordIsTheNextRequest := by
  refine ⟨fun s i => ⟨?decoded, ?run⟩, fun nbits w hlong => if_neg (by omega)⟩
  case decoded => rw [decodeTableWord, tableRequest_toNat, decode_encode]; rfl
  case run =>
    have hpending : (s.withFetchWord 40 (encode i).toNat).pending = encode i :: s.pending := by
      rw [State.withFetchWord_pending, tableRequest_toNat]
    rw [step_eq_exec hpending (decode_encode i)]
    rfl
end
